-- ==== Sys2Proof/Word.lean ====
section
/-! DEFINITION. The word types of the Brushless QPC block's command port and registers (R9, R12, R36, R49). -/

namespace Sys2Proof

/-- A byte: an IMM8 field, a payload byte, the checksum (R10, R55). -/
abbrev Byte := BitVec 8

/-- A command word CMD or a STATUS word (R49, R50). -/
abbrev Word32 := BitVec 32

/-- An operand word OPA or OPB, or the register RES (R19, R49). -/
abbrev Word64 := BitVec 64

/-- A binary64 bit pattern: sign 63, exponent 62:52, fraction 51:0 (R9, R36). -/
abbrev F64 := BitVec 64

end Sys2Proof
end

