-- ==== Sys2Proof/Config.lean ====
section
/-! DEFINITION. What an implementation of the block fixes (R6 to R10), and the free values: constants without a body
for results that the spec does not state. -/

namespace Sys2Proof.Config

/-- NSPEC, the number of field-spec entries (R7). DESIGN CHOICE (log 10): the default of an open parameter. -/
abbrev nspec : Nat := 8

/-- PK_MAX_BITS, the capacity of the stream buffer (R8). DESIGN CHOICE (log 10): the default of an open parameter. -/
abbrev pkMaxBits : Nat := 256

/-- W_MAX, the widest field (R6). -/
abbrev wMax : Nat := 32

/-- FREE VALUE (log 6): sign and payload of the NaN that an operation on the two operands produces. R14 leaves the
operations to IEEE 754, which fixes no payload. The top bit is the sign and the low 51 bits the payload. -/
opaque nanFree : F64 → F64 → BitVec 52

/-- FREE VALUE (log 7): `trunc` of a pattern that is not finite or is below 0. R14 defines `trunc` only for a finite
p >= 0. -/
opaque truncOutside : F64 → Nat

/-- FREE VALUE (log 8): `PkByte(k)` for k > 31, where the slice of R34 leaves PK.BUF; only a PK.BITS above
PK_MAX_BITS, which no run reaches, asks for one. -/
opaque pkByteOutside : Nat → Byte

end Sys2Proof.Config
end

