-- ==== Sys2Proof/Syntax.lean ====
section
/-! DEFINITION. The command at the port and the instruction it stands for: one constructor of `Instr` for each row of
the opcode map (R57). -/

namespace Sys2Proof

/-- A command (CMD, OPA, OPB) as the host presents it (R49). -/
structure Command where
  /-- CMD, the 32-bit command word (R52). -/
  cmd : Word32
  /-- OPA, the first operand word (R56). -/
  opa : Word64
  /-- OPB, the second operand word (R56). -/
  opb : Word64
deriving DecidableEq, Repr

/-- IDX, the index of a field-spec entry, 0..7 (R53). -/
abbrev SpecIdx := Fin Config.nspec

/-- The instructions, with the fields and operand words each uses (R56, R57). A width is the W of R54, not WM1. -/
inductive Instr where
  /-- NOP (R83). -/
  | nop
  /-- SPEC.WR: entry IDX, width W, OPA as MIN, OPB as MAX (R68). -/
  | specWr (idx : SpecIdx) (width : Nat) (mn mx : F64)
  /-- SPEC.RD: entry IDX, IMM8 as selector (R69). -/
  | specRd (idx : SpecIdx) (sel : Byte)
  /-- QUANT: entry IDX, OPA as binary64 value (R70). -/
  | quant (idx : SpecIdx) (v : F64)
  /-- PK.CLR (R72). -/
  | pkClr
  /-- PK.APP: width W, OPA as unsigned value (R73). -/
  | pkApp (width : Nat) (v : Word64)
  /-- PK.QAPP: entry IDX, OPA as binary64 value (R74). -/
  | pkQapp (idx : SpecIdx) (v : F64)
  /-- PK.FIN (R75). -/
  | pkFin
  /-- PK.RD: IMM8 as byte index k (R76). -/
  | pkRd (k : Byte)
  /-- CS.CLR (R79). -/
  | csClr
  /-- CS.ADD: IMM8 as the byte to add (R80). -/
  | csAdd (b : Byte)
  /-- CS.PK (R81). -/
  | csPk
  /-- CS.RD (R82). -/
  | csRd
deriving DecidableEq, Repr

end Sys2Proof
end

