-- ==== Sys2Proof/WellFormed.lean ====
section
/-! DEFINITION. Which instructions a command word can encode. IDX and IMM8 hold by their types; a width must be one
that WM1 encodes (R6, R54). -/

namespace Sys2Proof

/-- A width that WM1 = W - 1 encodes in 5 bits: 1 <= W <= 32 (R54). -/
abbrev WidthOk (width : Nat) : Prop := 1 ≤ width ∧ width ≤ Config.wMax

/-- The instruction has an encoding (R52 to R55). -/
abbrev Instr.WellFormed : Instr → Prop
  | .specWr _ width _ _ => WidthOk width
  | .pkApp width _ => WidthOk width
  | .nop => True
  | .specRd _ _ => True
  | .quant _ _ => True
  | .pkClr => True
  | .pkQapp _ _ => True
  | .pkFin => True
  | .pkRd _ => True
  | .csClr => True
  | .csAdd _ => True
  | .csPk => True
  | .csRd => True

/-- The same check as a computable test. -/
def Instr.wf : Instr → Bool
  | .specWr _ width _ _ => decide (WidthOk width)
  | .pkApp width _ => decide (WidthOk width)
  | .nop => true
  | .specRd _ _ => true
  | .quant _ _ => true
  | .pkClr => true
  | .pkQapp _ _ => true
  | .pkFin => true
  | .pkRd _ => true
  | .csClr => true
  | .csAdd _ => true
  | .csPk => true
  | .csRd => true

/-- The test decides the predicate. -/
theorem Instr.wf_iff (i : Instr) : i.wf = true ↔ i.WellFormed := by
  cases i <;> simp [Instr.wf]

end Sys2Proof
end

