-- ==== Sys2Proof/Decode.lean ====
section
/-! DEFINITION. The decoder, total on every command (R58), the encoder from the same C format (R52), and the numbering
of an instruction's bits for the host's opcode table. -/

namespace Sys2Proof

/-- IDX = CMD[10:8] (R53). -/
def Command.idx (c : Command) : SpecIdx :=
  ⟨(c.cmd.extractLsb' 8 3).toNat, (c.cmd.extractLsb' 8 3).isLt⟩

/-- W = zext(CMD[20:16]) + 1 (R54). -/
def Command.width (c : Command) : Nat := (c.cmd.extractLsb' 16 5).toNat + 1

/-- IMM8 = CMD[31:24] (R55). -/
def Command.imm8 (c : Command) : Byte := c.cmd.extractLsb' 24 8

/-- OPC = CMD[7:0] (R52). -/
def Command.opc (c : Command) : Byte := c.cmd.extractLsb' 0 8

/-- A row of the opcode map: mask, match, and the operation with the fields and operand words it uses (R57). -/
structure OpRow where
  /-- The bits that must agree: opcode, reserved bits and every unused field. -/
  mask : Word32
  /-- The row's match column. -/
  pattern : Word32
  /-- The instruction of a command word that the row selects. -/
  build : Command → Instr

/-- `(CMD & mask) == match` (R57). -/
def OpRow.selects (r : OpRow) (cmd : Word32) : Bool := cmd &&& r.mask == r.pattern

/-- The opcode map of R57, in its order. -/
def opcodeMap : List OpRow :=
  [ ⟨0xFFFFFFFF, 0x00000000, fun _ => .nop⟩,
    ⟨0xFFE0F8FF, 0x00000001, fun c => .specWr c.idx c.width c.opa c.opb⟩,
    ⟨0x00FFF8FF, 0x00000002, fun c => .specRd c.idx c.imm8⟩,
    ⟨0xFFFFF8FF, 0x00000003, fun c => .quant c.idx c.opa⟩,
    ⟨0xFFFFFFFF, 0x00000010, fun _ => .pkClr⟩,
    ⟨0xFFE0FFFF, 0x00000011, fun c => .pkApp c.width c.opa⟩,
    ⟨0xFFFFF8FF, 0x00000012, fun c => .pkQapp c.idx c.opa⟩,
    ⟨0xFFFFFFFF, 0x00000013, fun _ => .pkFin⟩,
    ⟨0x00FFFFFF, 0x00000014, fun c => .pkRd c.imm8⟩,
    ⟨0xFFFFFFFF, 0x00000020, fun _ => .csClr⟩,
    ⟨0x00FFFFFF, 0x00000021, fun c => .csAdd c.imm8⟩,
    ⟨0xFFFFFFFF, 0x00000022, fun _ => .csPk⟩,
    ⟨0xFFFFFFFF, 0x00000023, fun _ => .csRd⟩ ]

/-- Why a command word selects no row: the two cases of R59. Both raise ILLEGAL. DESIGN CHOICE (log 13): the names. -/
inductive DecodeError where
  /-- OPC is not in the opcode map. -/
  | unassignedOpcode
  /-- OPC is assigned and a reserved bit or an unused field is not zero. -/
  | nonzeroUnusedBits
deriving DecidableEq, Repr

/-- `decode(CMD)`: the first row that selects the word, or the reason there is none (R58, R59). -/
def decode (c : Command) : Except DecodeError Instr :=
  match opcodeMap.find? (fun r => r.selects c.cmd) with
  | some r => .ok (r.build c)
  | none =>
    if opcodeMap.any (fun r => r.pattern.extractLsb' 0 8 == c.opc) then .error .nonzeroUnusedBits
    else .error .unassignedOpcode

/-- The C format of R52, bit 31 first: IMM8, 000, WM1, 00000, IDX, OPC. -/
def cFormat (opc : Byte) (idx : BitVec 3) (wm1 : BitVec 5) (imm8 : Byte) : Word32 :=
  imm8 ++ 0#3 ++ wm1 ++ 0#5 ++ idx ++ opc

/-- IDX as its 3-bit field (R53). -/
def idxField (i : SpecIdx) : BitVec 3 := BitVec.ofNat 3 i.val

/-- WM1, the width minus one, as its 5-bit field (R54). -/
def wm1Field (width : Nat) : BitVec 5 := BitVec.ofNat 5 (width - 1)

/-- The command of an instruction: opcode and fields as in R57, unused fields and operand words 0 (R57, R61). -/
def encode : Instr → Command
  | .nop => ⟨cFormat 0x00 0 0 0, 0, 0⟩
  | .specWr i w mn mx => ⟨cFormat 0x01 (idxField i) (wm1Field w) 0, mn, mx⟩
  | .specRd i sel => ⟨cFormat 0x02 (idxField i) 0 sel, 0, 0⟩
  | .quant i v => ⟨cFormat 0x03 (idxField i) 0 0, v, 0⟩
  | .pkClr => ⟨cFormat 0x10 0 0 0, 0, 0⟩
  | .pkApp w v => ⟨cFormat 0x11 0 (wm1Field w) 0, v, 0⟩
  | .pkQapp i v => ⟨cFormat 0x12 (idxField i) 0 0, v, 0⟩
  | .pkFin => ⟨cFormat 0x13 0 0 0, 0, 0⟩
  | .pkRd k => ⟨cFormat 0x14 0 0 k, 0, 0⟩
  | .csClr => ⟨cFormat 0x20 0 0 0, 0, 0⟩
  | .csAdd b => ⟨cFormat 0x21 0 0 b, 0, 0⟩
  | .csPk => ⟨cFormat 0x22 0 0 0, 0, 0⟩
  | .csRd => ⟨cFormat 0x23 0 0 0, 0, 0⟩

/-- A command read from one number: CMD in bits 31:0, OPA in bits 95:32, OPB in bits 159:96. DESIGN CHOICE (log 11):
R36 gives the three words no common numbering. -/
def Command.ofBits (w : Nat) : Command :=
  ⟨BitVec.ofNat 32 w, BitVec.ofNat 64 (w / 2 ^ 32), BitVec.ofNat 64 (w / 2 ^ 96)⟩

/-- The instruction the decoder reads from `nbits` bits of `w`, every bit above them 0. -/
def decodeTableWord (nbits w : Nat) : Option Instr :=
  match decode (Command.ofBits (w % 2 ^ nbits)) with
  | .ok i => some i
  | .error _ => none

end Sys2Proof
end

