-- ==== Sys2Proof/Machine/Binary64.lean ====
section
/-! DEFINITION. The binary64 primitives of R14, on exact integers. Every finite binary64 number is an integer multiple of
2^-1074, so a finite pattern is read as that integer, an operation is computed exactly on integers, and the exact result
is rounded once by `f64RoundMag` (log 5). -/

namespace Sys2Proof.Machine

/-- Exponent bits 62:52 (R36). -/
def f64Exp (a : F64) : Nat := (a.extractLsb' 52 11).toNat

/-- Fraction bits 51:0 (R36). -/
def f64Frac (a : F64) : Nat := (a.extractLsb' 0 52).toNat

/-- Sign bit 63 (R36). -/
def f64Sign (a : F64) : Bool := a.getLsbD 63

/-- `f64_isnan` (R14). -/
def f64IsNaN (a : F64) : Bool := f64Exp a == 2047 && f64Frac a != 0

/-- `f64_isfinite` (R14). -/
def f64IsFinite (a : F64) : Bool := f64Exp a != 2047

/-- An infinity: exponent bits all ones and fraction zero. -/
def f64IsInf (a : F64) : Bool := f64Exp a == 2047 && f64Frac a == 0

/-- The magnitude of a pattern in units of 2^-1074. A subnormal has magnitude `frac`; a normal of exponent field e has
(2^52 + frac) * 2^(e-1). An infinity reads as 2^2098, above every finite magnitude, so that the order below holds for it. -/
def f64Mag (a : F64) : Nat :=
  if f64Exp a = 0 then f64Frac a else (2 ^ 52 + f64Frac a) * 2 ^ (f64Exp a - 1)

/-- The value of a pattern that is no NaN, in units of 2^-1074. Both zeros have value 0. -/
def f64Val (a : F64) : Int := if f64Sign a then -(f64Mag a : Int) else (f64Mag a : Int)

/-- `f64_lt`: false when either operand is a NaN; -0.0 and +0.0 are equal (R14). -/
def f64Lt (a b : F64) : Bool := !f64IsNaN a && !f64IsNaN b && decide (f64Val a < f64Val b)

/-- `f64_gt(a, b)` is `f64_lt(b, a)` (R14). -/
def f64Gt (a b : F64) : Bool := f64Lt b a

/-- num/den rounded to an integer, to nearest, ties to even. -/
def roundHalfEven (num den : Nat) : Nat :=
  if den < 2 * (num % den) then num / den + 1
  else if 2 * (num % den) = den then num / den + num / den % 2
  else num / den

/-- How many low bits the rounding of num/den drops to keep 53: none below 2^53. -/
def f64Shift (num den : Nat) : Nat := Nat.log2 (num / den) - 52

/-- num/den units of 2^-1074 rounded to a binary64 magnitude, to nearest with ties to even; the answer is the pattern's
bits 62:0 as a number. With k bits dropped the significand s is at most 2^53 and the pattern is k * 2^52 + s: a carry
out of the significand steps the exponent. At or above 2047 * 2^52 the result is infinity (R14). -/
def f64RoundMag (num den : Nat) : Nat :=
  let k := f64Shift num den
  min (k * 2 ^ 52 + roundHalfEven num (den * 2 ^ k)) (2047 * 2 ^ 52)

/-- A pattern from its sign and its bits 62:0. -/
def f64Pack (neg : Bool) (mag : Nat) : F64 := BitVec.ofBool neg ++ BitVec.ofNat 63 mag

/-- An infinity of the given sign. -/
def f64Inf (neg : Bool) : F64 := f64Pack neg (2047 * 2 ^ 52)

/-- A zero of the given sign. -/
def f64Zero (neg : Bool) : F64 := f64Pack neg 0

/-- The quiet NaN an operation on a and b produces, of free sign and payload. PRESUMED (log 6): that it is quiet. -/
def f64NaN (a b : F64) : F64 :=
  let free := Config.nanFree a b
  free.extractLsb' 51 1 ++ 0x7FF#11 ++ 1#1 ++ free.extractLsb' 0 51

/-- The pattern with the sign bit inverted. -/
def f64Neg (a : F64) : F64 := f64Pack (!f64Sign a) (a.extractLsb' 0 63).toNat

/-- `f64_sub` (R14). An exact zero is +0.0, but for (-0.0) - (+0.0) = -0.0. -/
def f64Sub (a b : F64) : F64 :=
  if f64IsNaN a || f64IsNaN b then f64NaN a b
  else if f64IsInf a then
    if f64IsInf b && f64Sign a == f64Sign b then f64NaN a b else a
  else if f64IsInf b then f64Neg b
  else
    let d := f64Val a - f64Val b
    if d = 0 then f64Zero (f64Sign a && !f64Sign b)
    else f64Pack (decide (d < 0)) (f64RoundMag d.natAbs 1)

/-- `f64_mul` (R14). The product of two magnitudes is in units of 2^-2148. -/
def f64Mul (a b : F64) : F64 :=
  let neg := f64Sign a ^^ f64Sign b
  if f64IsNaN a || f64IsNaN b then f64NaN a b
  else if f64IsInf a || f64IsInf b then
    if f64Mag a = 0 || f64Mag b = 0 then f64NaN a b else f64Inf neg
  else f64Pack neg (f64RoundMag (f64Mag a * f64Mag b) (2 ^ 1074))

/-- `f64_div` (R14). -/
def f64Div (a b : F64) : F64 :=
  let neg := f64Sign a ^^ f64Sign b
  if f64IsNaN a || f64IsNaN b then f64NaN a b
  else if f64IsInf a then
    if f64IsInf b then f64NaN a b else f64Inf neg
  else if f64IsInf b then f64Zero neg
  else if f64Mag b = 0 then
    if f64Mag a = 0 then f64NaN a b else f64Inf neg
  else f64Pack neg (f64RoundMag (f64Mag a * 2 ^ 1074) (f64Mag b))

/-- `f64_of_nat`: the value of an integer, exact below 2^53 (R14). -/
def f64OfNat (n : Nat) : F64 := f64Pack false (f64RoundMag (n * 2 ^ 1074) 1)

/-- `trunc`: the largest integer k <= p, for a finite p >= 0 (R14); a free value for any other pattern (log 7). -/
def f64Trunc (p : F64) : Nat :=
  if f64IsFinite p && decide (0 ≤ f64Val p) then f64Mag p / 2 ^ 1074 else Config.truncOutside p

/-- The binary64 nearest to the decimal ±m * 10^e, ties to even (R61). -/
def f64OfDecimal (neg : Bool) (m : Nat) (e : Int) : F64 :=
  f64Pack neg
    (if 0 ≤ e then f64RoundMag (m * 10 ^ e.toNat * 2 ^ 1074) 1
     else f64RoundMag (m * 2 ^ 1074) (10 ^ (-e).toNat))

end Sys2Proof.Machine
end

