-- ==== Sys2Proof/Machine/State.lean ====
section
/-! DEFINITION. The state of the block (R16), the reasons a step can stop, and the state after reset (R99). -/

namespace Sys2Proof.Machine

/-- The fault codes of R87 but for 0 (no fault), in its order; `FaultCode.code` numbers them. Taking one is a next state
(R88), not a stop of the machine. -/
inductive FaultCode where
  /-- No row matches the command word, or an SPEC.RD selector >= 3. -/
  | illegal
  /-- SPEC.WR bounds that R68 does not admit. -/
  | specBad
  /-- The entry named by IDX has VALID = 0. -/
  | specUnset
  /-- The value to quantize is a NaN. -/
  | nanInput
  /-- A field value >= 2^W. -/
  | fieldRange
  /-- An append past PK_MAX_BITS. -/
  | pkOverflow
  /-- PK.FIN of a stream whose length is no multiple of 8. -/
  | pkAlign
  /-- Append to a sealed stream, or read or checksum of an unsealed one. -/
  | pkState
  /-- PK.RD of an index >= NBYTES. -/
  | pkIndex
deriving DecidableEq, Repr

/-- One entry of the field-spec table (R24). -/
structure SpecEntry where
  /-- VALID: the entry holds a FieldSpec. -/
  valid : Bool
  /-- W, the bit width, 6 bits. -/
  width : BitVec 6
  /-- MIN. -/
  min : F64
  /-- MAX. -/
  max : F64
deriving DecidableEq, Repr

/-- An entry never written since reset: VALID = 0, all fields 0 (R24, R26). -/
def SpecEntry.unset : SpecEntry := ⟨false, 0, 0, 0⟩

/-- The (STATUS, RES) pair returned for every command (R50). -/
structure Response where
  /-- The STATUS word after the command (R20). -/
  status : Word32
  /-- The RES register after the command (R19). -/
  res : Word64
deriving DecidableEq, Repr

/-- What the host can do between commands: issue one, or reset the block (R98, R106; log 2). -/
inductive HostEvent where
  /-- Present a command at the port (R49). -/
  | command (c : Command)
  /-- Reset the block (R98). -/
  | reset
deriving DecidableEq, Repr

/-- The architectural state of R16, and the model's own three fields for the host side of the port (log 1). -/
structure State where
  /-- SPEC[0..7], the field-spec table (R24). -/
  spec : Vector SpecEntry Config.nspec
  /-- PK.BUF, the stream buffer; stream bit j is its bit 255 - j (R27, R33). -/
  pkBuf : BitVec 256
  /-- PK.BITS, the length of the stream (R27). -/
  pkBits : BitVec 9
  /-- PK.DONE: the stream is sealed (R27). -/
  pkDone : Bool
  /-- CS.SUM, the checksum accumulator (R29). -/
  csSum : Byte
  /-- RES, the result register (R19). -/
  res : Word64
  /-- FAULT, the sticky fault flag (R21). -/
  fault : Bool
  /-- FCODE, the code of the first fault since reset (R22). -/
  fcode : BitVec 4
  /-- The MODEL's field: the host's finite list (R18; log 1). -/
  program : List HostEvent
  /-- The MODEL's field: the index of the next event of that list (R18; log 1). -/
  pc : Nat
  /-- The MODEL's field: the responses returned so far, oldest first (R50, R105; log 1). -/
  responses : List Response
deriving DecidableEq, Repr

/-- Why the machine stops with a fault. No command does: a command's fault is a next state (R88). -/
inductive Fault where
  /-- Raised by `step` when pc has passed the end of the host's list, which no run reaches (R18, R105; log 9). Safe. -/
  | pcBeyondProgram
deriving DecidableEq, Repr

/-- Why a step has no meaning. -/
inductive Refusal where
  /-- Raised by an arm of `exec` whose instruction has no meaning yet; no arm does now. Safe. -/
  | notModelled (mnemonic : String)
  /-- Raised by `step` when every event of the host's list has been performed: the run has ended (R18, R105; log 9).
  Safe. -/
  | endOfRun
deriving DecidableEq, Repr

/-- What one command or one step answers. -/
abbrev Result := Host.Outcome State Fault Refusal

/-- The field-spec table after reset: position, speed, kp, kd, torque, and three unset entries (R26). -/
def resetSpec : Vector SpecEntry Config.nspec :=
  #v[⟨true, 16, 0xC057E00000000000, 0x4057E00000000000⟩,
     ⟨true, 12, 0xC046800000000000, 0x4046800000000000⟩,
     ⟨true, 12, 0x0000000000000000, 0x407F400000000000⟩,
     ⟨true, 12, 0x0000000000000000, 0x4014000000000000⟩,
     ⟨true, 12, 0xC032000000000000, 0x4032000000000000⟩,
     SpecEntry.unset, SpecEntry.unset, SpecEntry.unset]

/-- The block right after reset (R99). PK.BUF is 0: DESIGN CHOICE (log 3), the spec leaves it unspecified. The host's list
is empty: programs come from outside the machine (log 1). -/
def State.reset : State where
  spec := resetSpec
  pkBuf := 0
  pkBits := 0
  pkDone := false
  csSum := 0
  res := 0
  fault := false
  fcode := 0
  program := []
  pc := 0
  responses := []

end Sys2Proof.Machine
end

