-- ==== Sys2Proof/Machine/Flags.lean ====
section
/-! DEFINITION. The fault codes' numbers, the STATUS word and the response. The block has no other flag (R23). -/

namespace Sys2Proof.Machine

/-- The number FCODE holds for a fault (R87). -/
def FaultCode.code : FaultCode → BitVec 4
  | .illegal => 1
  | .specBad => 2
  | .specUnset => 3
  | .nanInput => 4
  | .fieldRange => 5
  | .pkOverflow => 6
  | .pkAlign => 7
  | .pkState => 8
  | .pkIndex => 9

/-- STATUS, assembled from state: `zext_32({PK.BITS, 7'b0, PK.DONE, FCODE, 3'b0, FAULT})` (R20). -/
def State.status (s : State) : Word32 :=
  (s.pkBits ++ 0#7 ++ BitVec.ofBool s.pkDone ++ s.fcode ++ 0#3 ++ BitVec.ofBool s.fault).setWidth 32

/-- The response of a command that leaves the block in this state (R50). -/
def State.response (s : State) : Response := ⟨s.status, s.res⟩

end Sys2Proof.Machine
end

