-- ==== Sys2Proof/Machine/Operands.lean ====
section
/-! DEFINITION. The operand forms: the entry an IDX names (R53), what a selector reads of it (R69), a width as the
quantizer's n (R63), a byte and a count as they enter RES (R55, R86). -/

namespace Sys2Proof.Machine

/-- SPEC[IDX] (R53). -/
def State.entry (s : State) (idx : SpecIdx) : SpecEntry := s.spec[idx]

/-- The width/valid word of SPEC.RD's selector 0: `zext_64({VALID, 2'b00, W})`, W in bits 5:0 and VALID in bit 8 (R69). -/
def SpecEntry.widthWord (e : SpecEntry) : Word64 :=
  (BitVec.ofBool e.valid ++ 0#2 ++ e.width).setWidth 64

/-- The word of an entry that a selector names, none for a selector >= 3 (R69). -/
def SpecEntry.word (e : SpecEntry) (sel : Byte) : Option Word64 :=
  if sel = 0 then some e.widthWord
  else if sel = 1 then some e.min
  else if sel = 2 then some e.max
  else none

/-- The largest code of a width, n = 2^W - 1 (R63). -/
def maxCode (width : Nat) : Nat := 2 ^ width - 1

/-- A byte zero-extended to 64 bits (R55, R86). -/
def zextByte (b : Byte) : Word64 := b.setWidth 64

/-- A code or a count as a 64-bit result, `zext_64` (R12). -/
def zextNat (n : Nat) : Word64 := BitVec.ofNat 64 n

end Sys2Proof.Machine
end

