-- ==== Sys2Proof/Machine/Ops.lean ====
section
/-! DEFINITION. The operations the commands share: fault entry (R88), the frame of a command (R89, R90), the quantizer
(R63), the stream buffer (R33, R34, R71), the checksum's payload sum (R81), and reset as an event (R98). -/

namespace Sys2Proof.Machine

/-- Fault entry: FAULT <- 1 and FCODE <- code, nothing else (R88, R89). There is no return from it but reset (R93). -/
def State.takeFault (s : State) (c : FaultCode) : State := { s with fault := true, fcode := c.code }

/-- RES <- v (R19). -/
def State.setRes (s : State) (v : Word64) : State := { s with res := v }

/-- SPEC[i] <- e, all four fields at once (R24). -/
def State.setEntry (s : State) (idx : SpecIdx) (e : SpecEntry) : State :=
  { s with spec := s.spec.set idx.val e idx.isLt }

/-- CS.SUM <- v (R29). -/
def State.setSum (s : State) (v : Byte) : State := { s with csSum := v }

/-- PK.BUF and PK.BITS (R27). -/
def State.setStream (s : State) (buf : BitVec 256) (bits : BitVec 9) : State :=
  { s with pkBuf := buf, pkBits := bits }

/-- PK.DONE (R27). -/
def State.setDone (s : State) (done : Bool) : State := { s with pkDone := done }

/-- Reset as an event between commands: every element of the block takes its reset value (R98, R99), the host's list, its
index and the responses already returned stay (log 2). -/
def State.resetBlock (s : State) : State :=
  { State.reset with program := s.program, pc := s.pc, responses := s.responses }

/-- One command on a state: while FAULT = 1 it is ignored (R90); else its writes take effect together at its end (R13, R41),
or, where it raises a fault, none of them does and the fault entry is taken (R88, R89). -/
def runCommand (s : State) (effect : Except FaultCode State) : Result :=
  .next <|
    if s.fault then s
    else
      match effect with
      | .ok t => t
      | .error c => s.takeFault c

/-! ## The quantizer -/

/-- d = f64_sub(MAX, MIN) (R63). -/
def specSpan (mn mx : F64) : F64 := f64Sub mx mn

/-- r = f64_div(f64_of_nat(2^W - 1), d) (R63). -/
def specRatio (width : Nat) (mn mx : F64) : F64 := f64Div (f64OfNat (maxCode width)) (specSpan mn mx)

/-- The checks of SPEC.WR: finite bounds, MIN < MAX, finite d, finite r (R68, R25). -/
def specAdmits (width : Nat) (mn mx : F64) : Bool :=
  f64IsFinite mn && f64IsFinite mx && f64Lt mn mx
    && f64IsFinite (specSpan mn mx) && f64IsFinite (specRatio width mn mx)

/-- The clamp of R63, exact and silent (R64). -/
def clamp (mn mx v : F64) : F64 :=
  if f64Lt v mn then mn else if f64Gt v mx then mx else v

/-- p = f64_mul(f64_sub(c, MIN), r), with c the clamped value (R63). -/
def quantProduct (e : SpecEntry) (v : F64) : F64 :=
  f64Mul (f64Sub (clamp e.min e.max v) e.min) (specRatio e.width.toNat e.min e.max)

/-- `Quantize` against an entry: SPEC_UNSET, then NAN_INPUT, then the truncated product (R63, R65). -/
def quantize (e : SpecEntry) (v : F64) : Except FaultCode Nat :=
  if !e.valid then .error .specUnset
  else if f64IsNaN v then .error .nanInput
  else .ok (f64Trunc (quantProduct e v))

/-! ## The stream buffer -/

/-- `buf[lo + width - 1 : lo] <- v[width-1:0]`. -/
def writeField (buf : BitVec 256) (lo width v : Nat) : BitVec 256 :=
  let hole := BitVec.ofNat 256 (2 ^ width - 1) <<< lo
  (buf &&& ~~~hole) ||| (BitVec.ofNat 256 (v % 2 ^ width) <<< lo)

/-- `PkByte(k) = PK.BUF[255 - 8k : 248 - 8k]` (R34); a free value past the buffer's end (log 8). -/
def pkByte (buf : BitVec 256) (k : Nat) : Byte :=
  if k < Config.pkMaxBits / 8 then buf.extractLsb' (248 - 8 * k) 8 else Config.pkByteOutside k

/-- NBYTES = PK.BITS / 8 (R32). -/
def State.nBytes (s : State) : Nat := s.pkBits.toNat / 8

/-- `Append(v, W)`: PK_STATE, FIELD_RANGE, PK_OVERFLOW, then the field goes to stream bits B to B+W-1 (R71, R33). -/
def appendField (s : State) (width v : Nat) : Except FaultCode State :=
  let b := s.pkBits.toNat
  if s.pkDone then .error .pkState
  else if 2 ^ width ≤ v then .error .fieldRange
  else if Config.pkMaxBits < b + width then .error .pkOverflow
  else .ok (s.setStream (writeField s.pkBuf (256 - b - width) width v) (BitVec.ofNat 9 (b + width)))

/-! ## The checksum -/

/-- CS.SUM with bytes 0 to n-1 of the payload added in index order (R81). -/
def addPayload (sum : Byte) (buf : BitVec 256) (n : Nat) : Byte :=
  (List.range n).foldl (fun acc k => acc + pkByte buf k) sum

end Sys2Proof.Machine
end

