-- ==== Sys2Proof/Machine/Checksum.lean ====
section
/-! DEFINITION. The checksum family: CS.CLR (R79), CS.ADD (R80), CS.PK (R81), CS.RD (R82). -/

namespace Sys2Proof.Machine

/-- CS.CLR: CS.SUM <- 0 (R79). -/
def execCsClr (s : State) : Result := runCommand s (.ok (s.setSum 0))

/-- CS.ADD: CS.SUM <- (CS.SUM + byte) mod 256 (R80). -/
def execCsAdd (b : Byte) (s : State) : Result := runCommand s (.ok (s.setSum (s.csSum + b)))

/-- CS.PK: PK_STATE, or the payload's bytes added in index order (R81). -/
def execCsPk (s : State) : Result :=
  runCommand s <|
    if !s.pkDone then .error .pkState
    else .ok (s.setSum (addPayload s.csSum s.pkBuf s.nBytes))

/-- CS.RD: RES takes the sum (R82). -/
def execCsRd (s : State) : Result := runCommand s (.ok (s.setRes (zextByte s.csSum)))

end Sys2Proof.Machine
end

