-- ==== Sys2Proof/Machine/Misc.lean ====
section
/-! DEFINITION. NOP (R83). -/

namespace Sys2Proof.Machine

/-- NOP: no state change (R83). -/
def execNop (s : State) : Result := runCommand s (.ok s)

end Sys2Proof.Machine
end

