-- ==== Sys2Proof/Machine/Packer.lean ====
section
/-! DEFINITION. The bit-packer family: PK.CLR (R72), PK.APP (R73), PK.QAPP (R74), PK.FIN (R75), PK.RD (R76). -/

namespace Sys2Proof.Machine

/-- PK.CLR: PK.BITS <- 0, PK.DONE <- 0. PK.BUF stays as it was, which R72 allows: DESIGN CHOICE (log 4). -/
def execPkClr (s : State) : Result :=
  runCommand s (.ok ((s.setStream s.pkBuf 0).setDone false))

/-- PK.APP: `Append(OPA, W)` (R73). -/
def execPkApp (width : Nat) (v : Word64) (s : State) : Result :=
  runCommand s (appendField s width v.toNat)

/-- PK.QAPP: PK_STATE first, then the quantizer's faults, then the append of the code in the entry's width, and RES takes
the code (R74). -/
def execPkQapp (idx : SpecIdx) (v : F64) (s : State) : Result :=
  runCommand s <|
    if s.pkDone then .error .pkState
    else
      match quantize (s.entry idx) v with
      | .error c => .error c
      | .ok q =>
        match appendField s (s.entry idx).width.toNat q with
        | .error c => .error c
        | .ok t => .ok (t.setRes (zextNat q))

/-- PK.FIN: PK_ALIGN, or PK.DONE <- 1 and RES takes NBYTES (R75). -/
def execPkFin (s : State) : Result :=
  runCommand s <|
    if s.pkBits.toNat % 8 ≠ 0 then .error .pkAlign
    else .ok ((s.setDone true).setRes (zextNat s.nBytes))

/-- PK.RD: PK_STATE, PK_INDEX, or RES takes byte k (R76). -/
def execPkRd (k : Byte) (s : State) : Result :=
  runCommand s <|
    if !s.pkDone then .error .pkState
    else if s.nBytes ≤ k.toNat then .error .pkIndex
    else .ok (s.setRes (zextByte (pkByte s.pkBuf k.toNat)))

end Sys2Proof.Machine
end

