-- ==== Sys2Proof/Machine/Quantizer.lean ====
section
/-! DEFINITION. The quantizer family: SPEC.WR (R68), SPEC.RD (R69), QUANT (R70). -/

namespace Sys2Proof.Machine

/-- SPEC.WR: the entry takes VALID = 1, W, MIN and MAX, bit patterns as given, or SPEC_BAD (R68). -/
def execSpecWr (idx : SpecIdx) (width : Nat) (mn mx : F64) (s : State) : Result :=
  runCommand s <|
    if specAdmits width mn mx then .ok (s.setEntry idx ⟨true, BitVec.ofNat 6 width, mn, mx⟩)
    else .error .specBad

/-- SPEC.RD: RES takes the word the selector names, set or unset entry alike, or ILLEGAL (R69). -/
def execSpecRd (idx : SpecIdx) (sel : Byte) (s : State) : Result :=
  runCommand s <|
    match (s.entry idx).word sel with
    | some w => .ok (s.setRes w)
    | none => .error .illegal

/-- QUANT: RES takes the code (R70). -/
def execQuant (idx : SpecIdx) (v : F64) (s : State) : Result :=
  runCommand s <|
    match quantize (s.entry idx) v with
    | .ok q => .ok (s.setRes (zextNat q))
    | .error c => .error c

end Sys2Proof.Machine
end

