-- ==== Sys2Proof/Machine/Dispatch.lean ====
section
/-! DEFINITION. One arm per instruction, each one call of its meaning (R51). -/

namespace Sys2Proof.Machine

def exec (i : Instr) (s : State) : Host.Outcome State Fault Refusal :=
  match i with
  | .nop => Sys2Proof.Machine.execNop s
  | .specWr idx width mn mx => Sys2Proof.Machine.execSpecWr idx width mn mx s
  | .specRd idx sel => Sys2Proof.Machine.execSpecRd idx sel s
  | .quant idx v => Sys2Proof.Machine.execQuant idx v s
  | .pkClr => Sys2Proof.Machine.execPkClr s
  | .pkApp width v => Sys2Proof.Machine.execPkApp width v s
  | .pkQapp idx v => Sys2Proof.Machine.execPkQapp idx v s
  | .pkFin => Sys2Proof.Machine.execPkFin s
  | .pkRd k => Sys2Proof.Machine.execPkRd k s
  | .csClr => Sys2Proof.Machine.execCsClr s
  | .csAdd b => Sys2Proof.Machine.execCsAdd b s
  | .csPk => Sys2Proof.Machine.execCsPk s
  | .csRd => Sys2Proof.Machine.execCsRd s

end Sys2Proof.Machine
end

