-- ==== Sys2Proof/Machine/Port.lean ====
section
/-! DEFINITION. The command port: which host event is next, the response of a command, and the cycle of R51. `step` calls
these. -/

namespace Sys2Proof.Machine

/-- The host's next event (R18). -/
def State.nextEvent (s : State) : Option HostEvent := s.program[s.pc]?

/-- The index passes a performed event (R18). -/
def State.advance (s : State) : State := { s with pc := s.pc + 1 }

/-- A command ends: its response, from the state after it, is returned (R50), and the index advances by 1 (R18). -/
def State.respond (s : State) : State :=
  { s with responses := s.responses ++ [s.response] }.advance

/-- Go on from a next state. -/
def thenNext (r : Result) (f : State → State) : Result :=
  match r with
  | .next t => .next (f t)
  | .fault e => .fault e
  | .refused e => .refused e

/-- The cycle of one command (R51): ignored before decode while FAULT = 1 (R90), ILLEGAL where no row of the opcode map
selects the word (R58), else its execution; in each case one response. -/
def issue (meaning : Instr → State → Result) (c : Command) (s : State) : Result :=
  if s.fault then .next s.respond
  else
    match decode c with
    | .error _ => .next (s.takeFault .illegal).respond
    | .ok i => thenNext (meaning i s) State.respond

/-- One event of the host's list: a command (R51), a reset (R98; it returns no response, log 2), or no event left, which
ends the run (R105; log 9). -/
def cycle (meaning : Instr → State → Result) (s : State) : Result :=
  match s.nextEvent with
  | some (.command c) => issue meaning c s
  | some .reset => .next s.resetBlock.advance
  | none => if s.pc = s.program.length then .refused .endOfRun else .fault .pcBeyondProgram

/-- A list with its n-th element replaced; a shorter list is first filled with NOP commands. -/
def placeAt (e : HostEvent) : Nat → List HostEvent → List HostEvent
  | 0, [] => [e]
  | 0, _ :: rest => e :: rest
  | n + 1, [] => .command ⟨0, 0, 0⟩ :: placeAt e n []
  | n + 1, x :: rest => x :: placeAt e n rest

/-- The command of `w`'s low `nbits` bits stands next in the host's list; nothing else changes (log 1, log 11). -/
def State.placeCommand (s : State) (nbits w : Nat) : State :=
  { s with program := placeAt (.command (Command.ofBits (w % 2 ^ nbits))) s.pc s.program }

end Sys2Proof.Machine
end

