-- ==== Sys2Proof/Machine/Assembler.lean ====
section
/-! DEFINITION. The assembler's notation (R61) and the pseudo-commands (R62), on lists of characters. A line assembles to the
commands it stands for, or to none where it is not of a form of R61 or R62. What R61 leaves open of the notation is the
model's choice: spaces, upper case and the form of a decimal number in log 15, the literal form of the integer operands other
than `u` in log 19. -/

namespace Sys2Proof.Machine

/-! ## Pseudo-commands -/

/-- `PK.BUILD v0, v1, v2, v3, v4` (R62). -/
def pkBuild (v0 v1 v2 v3 v4 : F64) : List Instr :=
  [.pkClr, .pkQapp 0 v0, .pkQapp 1 v1, .pkQapp 2 v2, .pkQapp 3 v3, .pkQapp 4 v4, .pkFin]

/-- `CS.BYTES b1, ..., bn` (R62). -/
def csBytes (bytes : List Byte) : List Instr := bytes.map .csAdd

/-- `CS.FRAME a, m`, with the frame prefix AA AF 0F A1 (R62). -/
def csFrame (a m : Byte) : List Instr :=
  [.csClr] ++ csBytes [0xAA, 0xAF, 0x0F, 0xA1] ++ [.csPk, .csAdd a, .csAdd m, .csRd]

/-! ## Literals -/

/-- A space, tab or carriage return. -/
def isBlank (c : Char) : Bool := c == ' ' || c == '\t' || c == '\r'

/-- A text without the blanks around it. -/
def trimBlanks (cs : List Char) : List Char :=
  ((cs.dropWhile isBlank).reverse.dropWhile isBlank).reverse

/-- The pieces of a text between the separators. -/
def splitAtChar (sep : Char) : List Char → List (List Char)
  | [] => [[]]
  | c :: cs =>
    if c == sep then [] :: splitAtChar sep cs
    else
      match splitAtChar sep cs with
      | [] => [[c]]
      | w :: ws => (c :: w) :: ws

/-- The value of a digit in base 16. -/
def digitValue (c : Char) : Option Nat :=
  let n := c.toNat
  if 48 ≤ n ∧ n ≤ 57 then some (n - 48)
  else if 65 ≤ n ∧ n ≤ 70 then some (n - 55)
  else if 97 ≤ n ∧ n ≤ 102 then some (n - 87)
  else none

/-- Digits of a base, read after the value `acc`. -/
def readDigits (base acc : Nat) : List Char → Option Nat
  | [] => some acc
  | c :: cs =>
    match digitValue c with
    | some d => if d < base then readDigits base (acc * base + d) cs else none
    | none => none

/-- A text of at least one digit of a base. -/
def readNumber (base : Nat) (cs : List Char) : Option Nat :=
  if cs.isEmpty then none else readDigits base 0 cs

/-- An unsigned integer literal, decimal or `0x` hexadecimal. R61 gives these forms for `u` alone. DESIGN CHOICE (log 19): every
other integer operand has the same two, and hexadecimal digits without `0x` do not read. -/
def readNat : List Char → Option Nat
  | '0' :: 'x' :: cs => readNumber 16 cs
  | cs => readNumber 10 cs

/-- An integer with an optional sign, as the exponent of a decimal number. -/
def readInt : List Char → Option Int
  | '-' :: cs => (readNumber 10 cs).map fun n => -(n : Int)
  | '+' :: cs => (readNumber 10 cs).map fun n => (n : Int)
  | cs => (readNumber 10 cs).map fun n => (n : Int)

/-- An unsigned decimal number `digits[.digits][e exponent]` as mantissa and power of ten. -/
def readScaled (cs : List Char) : Option (Nat × Int) :=
  match splitAtChar 'e' cs with
  | [m] => readMantissa m 0
  | [m, e] =>
    match readInt e with
    | some x => readMantissa m x
    | none => none
  | _ => none
where
  /-- The mantissa, with the digits after the point counted into the exponent. -/
  readMantissa (m : List Char) (x : Int) : Option (Nat × Int) :=
    match splitAtChar '.' m with
    | [whole] => (readNumber 10 whole).map fun n => (n, x)
    | [whole, part] =>
      if whole.isEmpty || part.isEmpty then none
      else (readNumber 10 (whole ++ part)).map fun n => (n, x - part.length)
    | _ => none

/-- A real literal: a decimal number, to the nearest binary64 with ties to even, or `f64:0x` and 16 hexadecimal digits
(R61). -/
def readReal : List Char → Option F64
  | 'f' :: '6' :: '4' :: ':' :: '0' :: 'x' :: cs =>
    if cs.length = 16 then (readNumber 16 cs).map (BitVec.ofNat 64) else none
  | '-' :: cs => (readScaled cs).map fun p => f64OfDecimal true p.1 p.2
  | '+' :: cs => (readScaled cs).map fun p => f64OfDecimal false p.1 p.2
  | cs => (readScaled cs).map fun p => f64OfDecimal false p.1 p.2

/-- `idx`, 0..7 (R61), in a literal form of `u`. DESIGN CHOICE (log 19): the form. -/
def readIdx (cs : List Char) : Option SpecIdx :=
  match readNat cs with
  | some n => if h : n < Config.nspec then some ⟨n, h⟩ else none
  | none => none

/-- `W`, 1..32 (R61), in a literal form of `u`. DESIGN CHOICE (log 19): the form. -/
def readWidth (cs : List Char) : Option Nat :=
  match readNat cs with
  | some n => if WidthOk n then some n else none
  | none => none

/-- `k` or `b`, 0..255 (R61), a selector, an address or a mode, in a literal form of `u`. DESIGN CHOICE (log 15: the range of the
last three; log 19: the form). -/
def readByte (cs : List Char) : Option Byte :=
  match readNat cs with
  | some n => if n < 256 then some (BitVec.ofNat 8 n) else none
  | none => none

/-- `u`, which must fit OPA (R61). -/
def readU64 (cs : List Char) : Option Word64 :=
  match readNat cs with
  | some n => if n < 2 ^ 64 then some (BitVec.ofNat 64 n) else none
  | none => none

/-- Every text of a list read, or none. -/
def readAll {α : Type} (read : List Char → Option α) : List (List Char) → Option (List α)
  | [] => some []
  | cs :: rest =>
    match read cs, readAll read rest with
    | some a, some as => some (a :: as)
    | _, _ => none

/-! ## Lines -/

/-- The instructions of a mnemonic or pseudo-command with its operands (R61, R62). -/
def assembleForm (mnemonic : List Char) (ops : List (List Char)) : Option (List Instr) :=
  if mnemonic = "NOP".toList then
    match ops with | [] => some [.nop] | _ => none
  else if mnemonic = "SPEC.WR".toList then
    match ops with
    | [i, w, mn, mx] => do return [.specWr (← readIdx i) (← readWidth w) (← readReal mn) (← readReal mx)]
    | _ => none
  else if mnemonic = "SPEC.RD".toList then
    match ops with | [i, sel] => do return [.specRd (← readIdx i) (← readByte sel)] | _ => none
  else if mnemonic = "QUANT".toList then
    match ops with | [i, v] => do return [.quant (← readIdx i) (← readReal v)] | _ => none
  else if mnemonic = "PK.CLR".toList then
    match ops with | [] => some [.pkClr] | _ => none
  else if mnemonic = "PK.APP".toList then
    match ops with | [w, u] => do return [.pkApp (← readWidth w) (← readU64 u)] | _ => none
  else if mnemonic = "PK.QAPP".toList then
    match ops with | [i, v] => do return [.pkQapp (← readIdx i) (← readReal v)] | _ => none
  else if mnemonic = "PK.FIN".toList then
    match ops with | [] => some [.pkFin] | _ => none
  else if mnemonic = "PK.RD".toList then
    match ops with | [k] => do return [.pkRd (← readByte k)] | _ => none
  else if mnemonic = "CS.CLR".toList then
    match ops with | [] => some [.csClr] | _ => none
  else if mnemonic = "CS.ADD".toList then
    match ops with | [b] => do return [.csAdd (← readByte b)] | _ => none
  else if mnemonic = "CS.PK".toList then
    match ops with | [] => some [.csPk] | _ => none
  else if mnemonic = "CS.RD".toList then
    match ops with | [] => some [.csRd] | _ => none
  else if mnemonic = "PK.BUILD".toList then
    match readAll readReal ops with
    | some [v0, v1, v2, v3, v4] => some (pkBuild v0 v1 v2 v3 v4)
    | _ => none
  else if mnemonic = "CS.BYTES".toList then
    if ops.isEmpty then none else (readAll readByte ops).map csBytes
  else if mnemonic = "CS.FRAME".toList then
    match ops with | [a, m] => do return csFrame (← readByte a) (← readByte m) | _ => none
  else none

/-- The operands of a line's rest, between commas; an empty rest has none. -/
def splitOperands (cs : List Char) : List (List Char) :=
  if (trimBlanks cs).isEmpty then [] else (splitAtChar ',' cs).map trimBlanks

/-- The instructions of one line; a line of blanks or a comment alone stands for none of them (R61). -/
def assembleLine (line : List Char) : Option (List Instr) :=
  let text := trimBlanks (line.takeWhile (· != ';'))
  if text.isEmpty then some []
  else assembleForm (text.takeWhile (!isBlank ·)) (splitOperands (text.dropWhile (!isBlank ·)))

/-- The commands of a text, one line after the other; unused operand words are 0 (R61). DESIGN CHOICE (log 15): a line ends at a
line feed, and one line outside the forms keeps the whole text from assembling. -/
def assemble (text : List Char) : Option (List Command) :=
  (readAll assembleLine (splitAtChar '\n' text)).map fun parts => parts.flatten.map encode

end Sys2Proof.Machine
end

