-- ==== Sys2Proof/Safety.lean ====
section
/-! DEFINITION. The terms claims are stated in: the invariant of the block (R22, R25, R27), the stream as bits and as a number
(R33, R35), a list of instructions run one after the other, states that differ in unobservable bits only (R28), and lines of
assembler text (R61). -/

namespace Sys2Proof.Machine

/-! ## The invariant -/

/-- An entry with VALID = 1 meets R25; one with VALID = 0 has never been written and is all 0 (R24, R26). -/
abbrev SpecEntry.Ok (e : SpecEntry) : Prop :=
  (e.valid = true → WidthOk e.width.toNat ∧ specAdmits e.width.toNat e.min e.max = true) ∧
  (e.valid = false → e = SpecEntry.unset)

/-- Every entry of the field-spec table is Ok (R25). -/
abbrev State.TableOk (s : State) : Prop := ∀ idx : SpecIdx, (s.entry idx).Ok

/-- `PK.BITS <= PK_MAX_BITS`, and a sealed stream ends on a byte boundary (R27). -/
abbrev State.PackerOk (s : State) : Prop :=
  s.pkBits.toNat ≤ Config.pkMaxBits ∧ (s.pkDone = true → s.pkBits.toNat % 8 = 0)

/-- FCODE is 0 without a fault and one of 1..9 with one (R20, R22, R87). -/
abbrev State.FaultOk (s : State) : Prop :=
  (s.fault = false → s.fcode = 0) ∧ (s.fault = true → 1 ≤ s.fcode.toNat ∧ s.fcode.toNat ≤ 9)

/-- Whether a host event is a command. -/
def HostEvent.isCommand : HostEvent → Bool
  | .command _ => true
  | .reset => false

/-- The index has not passed the end of the host's list, and every command performed has returned one response
(R18, R50, R106). -/
abbrev State.ScriptOk (s : State) : Prop :=
  s.pc ≤ s.program.length ∧ s.responses.length = (s.program.take s.pc).countP HostEvent.isCommand

/-- The invariant that every step keeps. -/
abbrev State.Inv (s : State) : Prop := s.TableOk ∧ s.PackerOk ∧ s.FaultOk ∧ s.ScriptOk

/-! ## The stream -/

/-- Stream bit j, held at PK.BUF[255 - j] (R33). -/
def State.streamBit (s : State) (j : Nat) : Bool := s.pkBuf.getLsbD (255 - j)

/-- The stream as a number P, its first bit the most significant (R35). -/
def State.streamValue (s : State) : Nat := s.pkBuf.toNat / 2 ^ (256 - s.pkBits.toNat)

/-- `bin_W(v)`, the W bits of v, most significant first (R11). -/
def binBits (width v : Nat) : List Bool := (List.range width).map fun i => v.testBit (width - 1 - i)

/-- States that differ at most in the bits of PK.BUF at and beyond stream position PK.BITS (R28). -/
abbrev State.SameButDeadBits (s t : State) : Prop :=
  t = { s with pkBuf := t.pkBuf } ∧ ∀ j, j < s.pkBits.toNat → t.streamBit j = s.streamBit j

/-! ## Sequences -/

/-- Instructions one after the other, to the first stop. -/
def runInstrs : List Instr → State → Result
  | [], s => .next s
  | i :: rest, s =>
    match exec i s with
    | .next t => runInstrs rest t
    | .fault e => .fault e
    | .refused e => .refused e

/-- A summand of a checksum: a byte for CS.ADD, or the payload for CS.PK (R78). -/
def sumItem : Option Byte → Instr
  | some b => .csAdd b
  | none => .csPk

/-- What a summand adds (R78). -/
def sumItemValue (s : State) : Option Byte → Nat
  | some b => b.toNat
  | none => ((List.range s.nBytes).map fun k => (pkByte s.pkBuf k).toNat).sum

/-! ## Assembler text -/

/-- The text of one operand: not empty, without blanks, commas and semicolons (R61). -/
abbrev OperandText (cs : List Char) : Prop := cs ≠ [] ∧ ∀ c ∈ cs, isBlank c = false ∧ c ≠ ',' ∧ c ≠ ';'

/-- A line of R61: the mnemonic, a space, then the operands with a comma and a space between them. -/
def formLine (mnemonic : List Char) : List (List Char) → List Char
  | [] => mnemonic
  | op :: ops => mnemonic ++ ' ' :: (op ++ ops.flatMap fun o => ',' :: ' ' :: o)

/-- The k digits of n in a base of at most 16, leading zeros included. -/
def digitText (base k n : Nat) : List Char := (List.range k).map fun j => Nat.digitChar (n / base ^ (k - 1 - j) % base)

end Sys2Proof.Machine
end

