-- ==== Sys2Proof/Certificates/Slice0/Obligations.lean ====
section
/-! DEFINITION. The statements for the provers. Each names the rule of spec/ it formalises. A fault is written as the state it
leaves, `{ s with fault := true, fcode := n }` with n the number of R87. -/

open Sys2Proof Sys2Proof.Machine

/-! ## Encoding -/

/-- Decode of encode is the instruction, for every instruction that has an encoding (R52 to R58). -/
def Obligations.DecodeOfEncodeIsTheInstruction : Prop :=
  ∀ i : Instr, i.WellFormed → decode (encode i) = .ok i

/-- A word that decodes to an instruction is the word of that instruction: no bit of CMD is dropped (R52, R57, R58). -/
def Obligations.DecodedWordIsTheEncodedWord : Prop :=
  ∀ (c : Command) (i : Instr), decode c = .ok i → i.WellFormed ∧ (encode i).cmd = c.cmd

/-- The thirteen rows of the opcode map, mask and match, each with the operation, fields and operand words it selects; and a
word selects an operation only when it agrees with one of the rows (R57). -/
def Obligations.OpcodeMapSelectsEachOperation : Prop :=
  ∀ c : Command,
    (c.cmd &&& 0xFFFFFFFF = 0x00000000 → decode c = .ok .nop) ∧
    (c.cmd &&& 0xFFE0F8FF = 0x00000001 → decode c = .ok (.specWr c.idx c.width c.opa c.opb)) ∧
    (c.cmd &&& 0x00FFF8FF = 0x00000002 → decode c = .ok (.specRd c.idx c.imm8)) ∧
    (c.cmd &&& 0xFFFFF8FF = 0x00000003 → decode c = .ok (.quant c.idx c.opa)) ∧
    (c.cmd &&& 0xFFFFFFFF = 0x00000010 → decode c = .ok .pkClr) ∧
    (c.cmd &&& 0xFFE0FFFF = 0x00000011 → decode c = .ok (.pkApp c.width c.opa)) ∧
    (c.cmd &&& 0xFFFFF8FF = 0x00000012 → decode c = .ok (.pkQapp c.idx c.opa)) ∧
    (c.cmd &&& 0xFFFFFFFF = 0x00000013 → decode c = .ok .pkFin) ∧
    (c.cmd &&& 0x00FFFFFF = 0x00000014 → decode c = .ok (.pkRd c.imm8)) ∧
    (c.cmd &&& 0xFFFFFFFF = 0x00000020 → decode c = .ok .csClr) ∧
    (c.cmd &&& 0x00FFFFFF = 0x00000021 → decode c = .ok (.csAdd c.imm8)) ∧
    (c.cmd &&& 0xFFFFFFFF = 0x00000022 → decode c = .ok .csPk) ∧
    (c.cmd &&& 0xFFFFFFFF = 0x00000023 → decode c = .ok .csRd) ∧
    (∀ i, decode c = .ok i →
      ∃ row ∈ ([(0xFFFFFFFF, 0x00000000), (0xFFE0F8FF, 0x00000001), (0x00FFF8FF, 0x00000002),
          (0xFFFFF8FF, 0x00000003), (0xFFFFFFFF, 0x00000010), (0xFFE0FFFF, 0x00000011), (0xFFFFF8FF, 0x00000012),
          (0xFFFFFFFF, 0x00000013), (0x00FFFFFF, 0x00000014), (0xFFFFFFFF, 0x00000020), (0x00FFFFFF, 0x00000021),
          (0xFFFFFFFF, 0x00000022), (0xFFFFFFFF, 0x00000023)] : List (Word32 × Word32)),
        c.cmd &&& row.1 = row.2)

/-- At most one row of the opcode map selects a word (R58). -/
def Obligations.AtMostOneRowSelectsAWord : Prop :=
  opcodeMap.Pairwise fun r q => ∀ cmd : Word32, ¬(r.selects cmd = true ∧ q.selects cmd = true)

/-- The reserved and illegal encodings fault with ILLEGAL: an OPC outside the map, an assigned opcode with a 1 in a bit its
mask covers outside bits 7:0, an SPEC.RD selector >= 3; and every word decodes or faults so (R59). -/
def Obligations.ReservedEncodingsFaultWithIllegal : Prop :=
  ∀ (s : State) (c : Command), s.nextEvent = some (.command c) → s.fault = false →
    (((0x04 ≤ c.opc.toNat ∧ c.opc.toNat ≤ 0x0F) ∨ (0x15 ≤ c.opc.toNat ∧ c.opc.toNat ≤ 0x1F) ∨
        0x24 ≤ c.opc.toNat →
      step s = .next ({ s with fault := true, fcode := 1 } : State).respond) ∧
    (∀ r ∈ opcodeMap, r.pattern.extractLsb' 0 8 = c.opc → c.cmd &&& r.mask &&& 0xFFFFFF00 ≠ 0 →
      step s = .next ({ s with fault := true, fcode := 1 } : State).respond) ∧
    (c.cmd &&& 0x00FFF8FF = 0x00000002 → 3 ≤ c.imm8.toNat →
      step s = .next ({ s with fault := true, fcode := 1 } : State).respond) ∧
    ((∃ i, decode c = .ok i) ∨ step s = .next ({ s with fault := true, fcode := 1 } : State).respond))

/-- OPA and OPB are read by the commands of R56 and by no other: MIN and MAX, a value to quantize, a field value. A word that
is not used is ignored: decoding does not read it, and two states whose next commands differ in unused operand words only
step to states that differ in the host's list only (R56). -/
def Obligations.UnusedOperandWordsAreIgnored : Prop :=
  ∀ (cmd : Word32) (a b a' b' : Word64),
    (cmd.extractLsb' 0 8 ≠ 0x01 → decode ⟨cmd, a, b⟩ = decode ⟨cmd, a, b'⟩) ∧
    (cmd.extractLsb' 0 8 ≠ 0x01 → cmd.extractLsb' 0 8 ≠ 0x03 → cmd.extractLsb' 0 8 ≠ 0x11 →
      cmd.extractLsb' 0 8 ≠ 0x12 → decode ⟨cmd, a, b⟩ = decode ⟨cmd, a', b'⟩) ∧
    (∀ idx w mn mx, decode ⟨cmd, a, b⟩ = .ok (.specWr idx w mn mx) → mn = a ∧ mx = b) ∧
    (∀ idx v, decode ⟨cmd, a, b⟩ = .ok (.quant idx v) → v = a) ∧
    (∀ w v, decode ⟨cmd, a, b⟩ = .ok (.pkApp w v) → v = a) ∧
    (∀ idx v, decode ⟨cmd, a, b⟩ = .ok (.pkQapp idx v) → v = a) ∧
    (∀ s t : State, t = { s with program := t.program } →
      s.nextEvent = some (.command ⟨cmd, a, b⟩) → t.nextEvent = some (.command ⟨cmd, a', b'⟩) →
      (cmd.extractLsb' 0 8 ∈ ([0x01, 0x03, 0x11, 0x12] : List Byte) → a = a') →
      (cmd.extractLsb' 0 8 = 0x01 → b = b') →
      ∃ s', step s = .next s' ∧ step t = .next { s' with program := t.program })

/-- Words written out from the format of R52 decode to the instructions they stand for. -/
def Obligations.WordsOfTheFormatDecode : Prop :=
  decode ⟨0b00000000_000_00111_00000_101_00000001, 7, 9⟩ = .ok (.specWr 5 8 7 9) ∧
  decode ⟨0b00000010_000_00000_00000_010_00000010, 7, 9⟩ = .ok (.specRd 2 2) ∧
  decode ⟨0b00000000_000_11111_00000_000_00010001, 7, 9⟩ = .ok (.pkApp 32 7) ∧
  decode ⟨0b00000111_000_00000_00000_000_00010100, 7, 9⟩ = .ok (.pkRd 7) ∧
  decode ⟨0b10101010_000_00000_00000_000_00100001, 7, 9⟩ = .ok (.csAdd 0xAA) ∧
  decode ⟨0b00000000_000_00000_00000_000_00000000, 7, 9⟩ = .ok .nop

/-! ## The step -/

/-- A step whose next event is a command that decodes to i is exec of i, followed by the response and the index's advance
(R51, R18, R50). -/
def Obligations.StepRunsTheDecodedInstruction : Prop :=
  ∀ (s : State) (c : Command) (i : Instr), s.nextEvent = some (.command c) → decode c = .ok i →
    step s =
      match exec i s with
      | .next t => .next { t with pc := t.pc + 1, responses := t.responses ++ [⟨t.status, t.res⟩] }
      | .fault e => .fault e
      | .refused e => .refused e

/-- While FAULT = 1 every command, decodable or not, changes no state and returns STATUS, with FAULT = 1 and the first
FCODE, and the unchanged RES; no instruction has an effect (R90). -/
def Obligations.EveryCommandIsIgnoredAfterAFault : Prop :=
  ∀ s : State, s.fault = true →
    (∀ c, s.nextEvent = some (.command c) →
      step s = .next { s with pc := s.pc + 1, responses := s.responses ++ [⟨s.status, s.res⟩] }) ∧
    s.status.getLsbD 0 = true ∧ s.status.extractLsb' 4 4 = s.fcode ∧
    ∀ i : Instr, exec i s = .next s

/-- A step from a faulted state keeps FAULT and FCODE unless the host's event is a reset (R21, R22, R93). -/
def Obligations.OnlyResetClearsTheFault : Prop :=
  ∀ s t : State, s.fault = true → step s = .next t → s.nextEvent ≠ some .reset →
    t.fault = true ∧ t.fcode = s.fcode

/-- Every command, faulting and ignored ones too, completes and returns one response: the STATUS and the RES after it; the
host's index advances by exactly 1 (R50, R18, R104). -/
def Obligations.EveryCommandReturnsOneResponse : Prop :=
  ∀ (s : State) (c : Command), s.nextEvent = some (.command c) →
    ∃ t, step s = .next t ∧ t.responses = s.responses ++ [⟨t.status, t.res⟩] ∧
      t.status.getLsbD 0 = t.fault ∧ t.pc = s.pc + 1 ∧ t.program = s.program

/-- The state after reset: the device table, unset entries, and every register that the spec gives a value (R99, R26).
PK.BUF is left out: its reset value is unspecified. -/
def Obligations.ResetStateHoldsTheStatedValues : Prop :=
  State.reset.entry 0 = ⟨true, 16, 0xC057E00000000000, 0x4057E00000000000⟩ ∧
  State.reset.entry 1 = ⟨true, 12, 0xC046800000000000, 0x4046800000000000⟩ ∧
  State.reset.entry 2 = ⟨true, 12, 0x0000000000000000, 0x407F400000000000⟩ ∧
  State.reset.entry 3 = ⟨true, 12, 0x0000000000000000, 0x4014000000000000⟩ ∧
  State.reset.entry 4 = ⟨true, 12, 0xC032000000000000, 0x4032000000000000⟩ ∧
  (∀ idx : SpecIdx, 5 ≤ idx.val → State.reset.entry idx = ⟨false, 0, 0, 0⟩) ∧
  State.reset.pkBits = 0 ∧ State.reset.pkDone = false ∧ State.reset.csSum = 0 ∧ State.reset.res = 0 ∧
  State.reset.fault = false ∧ State.reset.fcode = 0 ∧ State.reset.status = 0

/-- A reset between commands gives every element of the block its reset value, from any state. The MODEL's choice (log 2): the
reset is an event of the host's list, it advances the index and returns no response. -/
def Obligations.ResetEventRestoresTheBlock : Prop :=
  ∀ s : State, s.nextEvent = some .reset →
    ∃ t, step s = .next t ∧ t.spec = State.reset.spec ∧ t.pkBits = 0 ∧ t.pkDone = false ∧ t.csSum = 0 ∧
      t.res = 0 ∧ t.fault = false ∧ t.fcode = 0 ∧
      t.program = s.program ∧ t.pc = s.pc + 1 ∧ t.responses = s.responses

/-- Within the host's list the machine always takes its step, and at the end of the list the run has ended. The MODEL's
choice (log 9): the end is a refusal. -/
def Obligations.StepStopsExactlyAtTheEndOfTheList : Prop :=
  ∀ s : State,
    (s.pc < s.program.length → ∃ t, step s = .next t) ∧
    (s.pc = s.program.length → step s = .refused .endOfRun)

/-- The state after reset meets the invariant (R25, R27, R99). -/
def Obligations.ResetMeetsTheInvariant : Prop := State.reset.Inv

/-- Every step keeps the invariant: valid entries meet R25, unset ones are all 0, PK.BITS <= 256, a sealed stream ends on a
byte boundary, FCODE is 0 exactly without a fault, and every command has had one response. -/
def Obligations.StepKeepsTheInvariant : Prop :=
  ∀ s t : State, s.Inv → step s = .next t → t.Inv

/-- The layout of STATUS (R20). -/
def Obligations.StatusHoldsItsFields : Prop :=
  ∀ s : State,
    s.status.getLsbD 0 = s.fault ∧ s.status.extractLsb' 1 3 = 0 ∧ s.status.extractLsb' 4 4 = s.fcode ∧
    s.status.getLsbD 8 = s.pkDone ∧ s.status.extractLsb' 9 7 = 0 ∧
    s.status.extractLsb' 16 9 = s.pkBits ∧ s.status.extractLsb' 25 7 = 0

/-! ## Instructions -/

/-- NOP is the all-zero word and changes no state; opcode 0 with another bit set does not decode, and faults with ILLEGAL
(R83). -/
def Obligations.NopChangesNothing : Prop :=
  (∀ c : Command, c.cmd = 0x00000000 → decode c = .ok .nop) ∧
  (∀ c : Command, c.opc = 0x00 → c.cmd ≠ 0x00000000 → ∃ e, decode c = .error e) ∧
  (∀ (s : State) (c : Command), s.nextEvent = some (.command c) → s.fault = false → c.opc = 0x00 →
    c.cmd ≠ 0x00000000 → step s = .next ({ s with fault := true, fcode := 1 } : State).respond) ∧
  ∀ s : State, exec .nop s = .next s

/-- SPEC.WR writes the whole entry, bit patterns as given, when the bounds are admitted, and no other entry and no other
element; else it faults with SPEC_BAD (R68). -/
def Obligations.SpecWrWritesAnAdmittedEntry : Prop :=
  (∀ c : Command, c.cmd &&& 0xFFE0F8FF = 0x00000001 → decode c = .ok (.specWr c.idx c.width c.opa c.opb)) ∧
  ∀ (s : State) (idx : SpecIdx) (w : Nat) (mn mx : F64), s.fault = false → WidthOk w →
    (f64IsFinite mn = true → f64IsFinite mx = true → f64Lt mn mx = true →
      f64IsFinite (f64Sub mx mn) = true → f64IsFinite (f64Div (f64OfNat (2 ^ w - 1)) (f64Sub mx mn)) = true →
      ∃ t, exec (.specWr idx w mn mx) s = .next t ∧ t = { s with spec := t.spec } ∧
        (t.entry idx).valid = true ∧ (t.entry idx).width.toNat = w ∧
        (t.entry idx).min = mn ∧ (t.entry idx).max = mx ∧
        ∀ j : SpecIdx, j ≠ idx → t.entry j = s.entry j) ∧
    ((f64IsFinite mn = false ∨ f64IsFinite mx = false ∨ f64Lt mn mx = false ∨
      f64IsFinite (f64Sub mx mn) = false ∨
      f64IsFinite (f64Div (f64OfNat (2 ^ w - 1)) (f64Sub mx mn)) = false) →
      exec (.specWr idx w mn mx) s = .next { s with fault := true, fcode := 2 })

/-- SPEC.RD: selector 0 gives W in bits 5:0 and VALID in bit 8, 1 gives MIN, 2 gives MAX, of a set and of an unset entry;
from 3 on it faults with ILLEGAL; nothing but RES changes (R69). -/
def Obligations.SpecRdReadsTheSelectedWord : Prop :=
  (∀ c : Command, c.cmd &&& 0x00FFF8FF = 0x00000002 → decode c = .ok (.specRd c.idx c.imm8)) ∧
  ∀ (s : State) (idx : SpecIdx), s.fault = false →
    (∃ r : Word64, exec (.specRd idx 0) s = .next { s with res := r } ∧
      r.toNat = (s.entry idx).width.toNat + 256 * (s.entry idx).valid.toNat) ∧
    exec (.specRd idx 1) s = .next { s with res := (s.entry idx).min } ∧
    exec (.specRd idx 2) s = .next { s with res := (s.entry idx).max } ∧
    ∀ sel : Byte, 3 ≤ sel.toNat → exec (.specRd idx sel) s = .next { s with fault := true, fcode := 1 }

/-- QUANT: SPEC_UNSET for an unset entry, then NAN_INPUT, else RES takes the code of the binary64 operations of R63 in their
order, a number of at most W bits; nothing else changes (R70, R63). -/
def Obligations.QuantReturnsTheTruncatedProduct : Prop :=
  (∀ c : Command, c.cmd &&& 0xFFFFF8FF = 0x00000003 → decode c = .ok (.quant c.idx c.opa)) ∧
  ∀ (s : State) (idx : SpecIdx) (v : F64), s.fault = false → (s.entry idx).Ok →
    ((s.entry idx).valid = false → exec (.quant idx v) s = .next { s with fault := true, fcode := 3 }) ∧
    ((s.entry idx).valid = true → f64IsNaN v = true →
      exec (.quant idx v) s = .next { s with fault := true, fcode := 4 }) ∧
    ((s.entry idx).valid = true → f64IsNaN v = false →
      ∃ r : Word64, exec (.quant idx v) s = .next { s with res := r } ∧
        r.toNat ≤ 2 ^ (s.entry idx).width.toNat - 1 ∧
        ∃ c n d p : F64,
          c = (if f64Lt v (s.entry idx).min then (s.entry idx).min
            else if f64Gt v (s.entry idx).max then (s.entry idx).max else v) ∧
          n = f64OfNat (2 ^ (s.entry idx).width.toNat - 1) ∧
          d = f64Sub (s.entry idx).max (s.entry idx).min ∧
          p = f64Mul (f64Sub c (s.entry idx).min) (f64Div n d) ∧
          f64IsFinite p = true ∧ 0 ≤ f64Val p ∧ r.toNat = f64Trunc p)

/-- PK.CLR empties and unseals the packer and changes nothing that can be observed besides (R72). That PK.BUF keeps its bits
is the MODEL's choice (log 4) and not stated here. -/
def Obligations.PkClrEmptiesTheStream : Prop :=
  (∀ c : Command, c.cmd = 0x00000010 → decode c = .ok .pkClr) ∧
  ∀ s : State, s.fault = false →
    ∃ t, exec .pkClr s = .next t ∧ t = { s with pkBits := 0, pkDone := false, pkBuf := t.pkBuf } ∧
      t.status.getLsbD 8 = false ∧ t.status.extractLsb' 16 9 = 0

/-- PK.APP: PK_STATE, FIELD_RANGE, PK_OVERFLOW in this order, else stream bits B to B+W-1 take the W bits of the value, most
significant first, every other bit of the buffer stays, and PK.BITS grows by W (R73, R71). -/
def Obligations.PkAppAppendsTheField : Prop :=
  (∀ c : Command, c.cmd &&& 0xFFE0FFFF = 0x00000011 → decode c = .ok (.pkApp c.width c.opa)) ∧
  ∀ (s : State) (w : Nat) (v : Word64), s.fault = false → WidthOk w →
    (s.pkDone = true → exec (.pkApp w v) s = .next { s with fault := true, fcode := 8 }) ∧
    (s.pkDone = false → 2 ^ w ≤ v.toNat → exec (.pkApp w v) s = .next { s with fault := true, fcode := 5 }) ∧
    (s.pkDone = false → v.toNat < 2 ^ w → 256 < s.pkBits.toNat + w →
      exec (.pkApp w v) s = .next { s with fault := true, fcode := 6 }) ∧
    (s.pkDone = false → v.toNat < 2 ^ w → s.pkBits.toNat + w ≤ 256 →
      ∃ t, exec (.pkApp w v) s = .next t ∧ t = { s with pkBuf := t.pkBuf, pkBits := t.pkBits } ∧
        t.pkBits.toNat = s.pkBits.toNat + w ∧
        (t.status.extractLsb' 16 9).toNat = (s.status.extractLsb' 16 9).toNat + w ∧
        ∀ j, j < 256 → t.streamBit j =
          if j < s.pkBits.toNat then s.streamBit j
          else if j < s.pkBits.toNat + w then v.toNat.testBit (w - 1 - (j - s.pkBits.toNat))
          else s.streamBit j)

/-- PK.QAPP: PK_STATE, SPEC_UNSET, NAN_INPUT, PK_OVERFLOW in this order and never FIELD_RANGE, else the code is appended in the
entry's width and RES takes it (R74). -/
def Obligations.PkQappAppendsTheCode : Prop :=
  (∀ c : Command, c.cmd &&& 0xFFFFF8FF = 0x00000012 → decode c = .ok (.pkQapp c.idx c.opa)) ∧
  ∀ (s : State) (idx : SpecIdx) (v : F64), s.fault = false → (s.entry idx).Ok →
    (s.pkDone = true → exec (.pkQapp idx v) s = .next { s with fault := true, fcode := 8 }) ∧
    (s.pkDone = false → (s.entry idx).valid = false →
      exec (.pkQapp idx v) s = .next { s with fault := true, fcode := 3 }) ∧
    (s.pkDone = false → (s.entry idx).valid = true → f64IsNaN v = true →
      exec (.pkQapp idx v) s = .next { s with fault := true, fcode := 4 }) ∧
    (s.pkDone = false → (s.entry idx).valid = true → f64IsNaN v = false →
      256 < s.pkBits.toNat + (s.entry idx).width.toNat →
      exec (.pkQapp idx v) s = .next { s with fault := true, fcode := 6 }) ∧
    (s.pkDone = false → (s.entry idx).valid = true → f64IsNaN v = false →
      s.pkBits.toNat + (s.entry idx).width.toNat ≤ 256 →
      ∃ t q, exec (.pkQapp idx v) s = .next t ∧ quantize (s.entry idx) v = .ok q ∧
        q ≤ 2 ^ (s.entry idx).width.toNat - 1 ∧ t.res.toNat = q ∧
        t = { s with pkBuf := t.pkBuf, pkBits := t.pkBits, res := t.res } ∧
        t.pkBits.toNat = s.pkBits.toNat + (s.entry idx).width.toNat ∧
        ∀ j, j < 256 → t.streamBit j =
          if j < s.pkBits.toNat then s.streamBit j
          else if j < s.pkBits.toNat + (s.entry idx).width.toNat then
            q.testBit ((s.entry idx).width.toNat - 1 - (j - s.pkBits.toNat))
          else s.streamBit j)

/-- PK.FIN seals a stream of a multiple of 8 bits, an empty and an already sealed one too, and RES takes NBYTES; else PK_ALIGN
(R75). -/
def Obligations.PkFinSealsAnAlignedStream : Prop :=
  (∀ c : Command, c.cmd = 0x00000013 → decode c = .ok .pkFin) ∧
  ∀ s : State, s.fault = false →
    (s.pkBits.toNat % 8 ≠ 0 → exec .pkFin s = .next { s with fault := true, fcode := 7 }) ∧
    (s.pkBits.toNat % 8 = 0 →
      ∃ r : Word64, exec .pkFin s = .next { s with pkDone := true, res := r } ∧ r.toNat * 8 = s.pkBits.toNat ∧
        exec .pkFin { s with pkDone := true, res := r } = .next { s with pkDone := true, res := r })

/-- PK.RD: PK_STATE on an unsealed packer, PK_INDEX at or past NBYTES, else RES takes byte k, whose bit 7 is stream bit 8k
and whose bit 0 is stream bit 8k+7; nothing else changes (R76). -/
def Obligations.PkRdReadsAPayloadByte : Prop :=
  (∀ c : Command, c.cmd &&& 0x00FFFFFF = 0x00000014 → decode c = .ok (.pkRd c.imm8)) ∧
  ∀ (s : State) (k : Byte), s.fault = false → s.pkBits.toNat ≤ 256 →
    (s.pkDone = false → exec (.pkRd k) s = .next { s with fault := true, fcode := 8 }) ∧
    (s.pkDone = true → s.pkBits.toNat / 8 ≤ k.toNat →
      exec (.pkRd k) s = .next { s with fault := true, fcode := 9 }) ∧
    (s.pkDone = true → k.toNat < s.pkBits.toNat / 8 →
      ∃ r : Word64, exec (.pkRd k) s = .next { s with res := r } ∧ r.toNat < 256 ∧
        ∀ b, b < 8 → r.getLsbD b = s.streamBit (8 * k.toNat + 7 - b))

/-- CS.CLR clears the sum and nothing else (R79). -/
def Obligations.CsClrClearsTheSum : Prop :=
  (∀ c : Command, c.cmd = 0x00000020 → decode c = .ok .csClr) ∧
  ∀ s : State, s.fault = false → exec .csClr s = .next { s with csSum := 0 }

/-- CS.ADD adds its byte modulo 256 and changes nothing else (R80). -/
def Obligations.CsAddAddsModulo256 : Prop :=
  (∀ c : Command, c.cmd &&& 0x00FFFFFF = 0x00000021 → decode c = .ok (.csAdd c.imm8)) ∧
  ∀ (s : State) (b : Byte), s.fault = false →
    ∃ t, exec (.csAdd b) s = .next t ∧ t = { s with csSum := t.csSum } ∧
      t.csSum.toNat = (s.csSum.toNat + b.toNat) % 256

/-- CS.PK: PK_STATE on an unsealed packer, else the sum takes every payload byte modulo 256 and nothing else changes (R81). -/
def Obligations.CsPkAddsThePayload : Prop :=
  (∀ c : Command, c.cmd = 0x00000022 → decode c = .ok .csPk) ∧
  ∀ s : State, s.fault = false →
    (s.pkDone = false → exec .csPk s = .next { s with fault := true, fcode := 8 }) ∧
    (s.pkDone = true →
      ∃ t, exec .csPk s = .next t ∧ t = { s with csSum := t.csSum } ∧
        t.csSum.toNat =
          (s.csSum.toNat + ((List.range (s.pkBits.toNat / 8)).map fun k => (pkByte s.pkBuf k).toNat).sum) % 256)

/-- CS.RD: RES takes the sum zero-extended, and the sum stays (R82). -/
def Obligations.CsRdReadsTheSum : Prop :=
  (∀ c : Command, c.cmd = 0x00000023 → decode c = .ok .csRd) ∧
  ∀ s : State, s.fault = false →
    ∃ r : Word64, exec .csRd s = .next { s with res := r } ∧ r.toNat = s.csSum.toNat ∧ r.extractLsb' 8 56 = 0

/-! ## Faults and frames of the whole machine -/

/-- A command that faults writes nothing but FAULT and FCODE (R89). -/
def Obligations.FaultingCommandWritesOnlyTheFaultFields : Prop :=
  ∀ (i : Instr) (s t : State), s.fault = false → exec i s = .next t → t.fault = true →
    t = { s with fault := true, fcode := t.fcode } ∧ 1 ≤ t.fcode.toNat ∧ t.fcode.toNat ≤ 9

/-- Each fault code is raised only by the commands of its row of R87, over tables that meet R25. -/
def Obligations.FaultCodesAreRaisedByTheirCommands : Prop :=
  ∀ (i : Instr) (s t : State), s.TableOk → s.fault = false → exec i s = .next t → t.fault = true →
    t.fcode.toNat ∈
      match i with
      | .nop => []
      | .specWr _ _ _ _ => [2]
      | .specRd _ _ => [1]
      | .quant _ _ => [3, 4]
      | .pkClr => []
      | .pkApp _ _ => [5, 6, 8]
      | .pkQapp _ _ => [3, 4, 6, 8]
      | .pkFin => [7]
      | .pkRd _ => [8, 9]
      | .csClr => []
      | .csAdd _ => []
      | .csPk => [8]
      | .csRd => []

/-- Each state element is written by the commands of R16's table and by no other; RES by six commands only, and never by one
that faults (R16, R19). The host's list, index and responses are no command's to write. -/
def Obligations.ElementsAreWrittenOnlyByTheirCommands : Prop :=
  ∀ (i : Instr) (s t : State), exec i s = .next t →
    ((∀ idx w mn mx, i ≠ .specWr idx w mn mx) → t.spec = s.spec) ∧
    ((∀ w v, i ≠ .pkApp w v) → (∀ idx v, i ≠ .pkQapp idx v) → t.pkBuf = s.pkBuf) ∧
    ((∀ w v, i ≠ .pkApp w v) → (∀ idx v, i ≠ .pkQapp idx v) → i ≠ .pkClr → t.pkBits = s.pkBits) ∧
    (i ≠ .pkClr → i ≠ .pkFin → t.pkDone = s.pkDone) ∧
    (i ≠ .csClr → (∀ b, i ≠ .csAdd b) → i ≠ .csPk → t.csSum = s.csSum) ∧
    ((∀ idx sel, i ≠ .specRd idx sel) → (∀ idx v, i ≠ .quant idx v) → (∀ idx v, i ≠ .pkQapp idx v) →
      i ≠ .pkFin → (∀ k, i ≠ .pkRd k) → i ≠ .csRd → t.res = s.res) ∧
    (t.fault = true → t.res = s.res) ∧
    t.program = s.program ∧ t.pc = s.pc ∧ t.responses = s.responses

/-- The read-type commands change RES alone, and issued again they change nothing (R41). -/
def Obligations.ReadCommandsChangeOnlyResAndAreIdempotent : Prop :=
  ∀ (i : Instr) (s t : State),
    ((∃ idx sel, i = .specRd idx sel) ∨ (∃ idx v, i = .quant idx v) ∨ (∃ k, i = .pkRd k) ∨ i = .csRd) →
    exec i s = .next t → (t.fault = false → t = { s with res := t.res }) ∧ exec i t = .next t

/-- The bits of PK.BUF at and beyond PK.BITS are not observable: states that differ in them only take steps to states that
differ in them only, with equal responses (R28). -/
def Obligations.DeadBufferBitsAreUnobservable : Prop :=
  ∀ s t s' : State, s.SameButDeadBits t → step s = .next s' →
    ∃ t', step t = .next t' ∧ s'.SameButDeadBits t' ∧ t'.responses = s'.responses

/-! ## The quantizer -/

/-- The code of every value that is no NaN is in [0, 2^W - 1], for every entry that R25 admits; the product is finite and not
negative (R66, R65). -/
def Obligations.QuantizeStaysInRange : Prop :=
  ∀ (e : SpecEntry) (v : F64), e.Ok → e.valid = true → f64IsNaN v = false →
    f64IsFinite (quantProduct e v) = true ∧ 0 ≤ f64Val (quantProduct e v) ∧
    ∃ q, quantize e v = .ok q ∧ q ≤ 2 ^ e.width.toNat - 1

/-- No value but a NaN faults; values below MIN quantize as MIN and values above MAX as MAX, infinities included; others are
used unchanged; -0.0 against a MIN of +0.0 gives 0; and clamping first changes no code (R64, R67). -/
def Obligations.ClampingIsSilentAndTotal : Prop :=
  ∀ (e : SpecEntry) (v : F64), e.Ok → e.valid = true → f64IsNaN v = false →
    (∃ q, quantize e v = .ok q) ∧
    (f64Lt v e.min = true → quantize e v = quantize e e.min) ∧
    (f64Gt v e.max = true → quantize e v = quantize e e.max) ∧
    (f64Lt v e.min = false → f64Gt v e.max = false → clamp e.min e.max v = v) ∧
    quantize e 0xFFF0000000000000 = quantize e e.min ∧ quantize e 0x7FF0000000000000 = quantize e e.max ∧
    (e.min = 0x0000000000000000 → quantize e 0x8000000000000000 = .ok 0) ∧
    quantize e (clamp e.min e.max v) = quantize e v

/-- Quantize is monotonic, non-decreasing in the value (R67, property 2). -/
def Obligations.QuantizeIsMonotonic : Prop :=
  ∀ (e : SpecEntry) (v w : F64) (p q : Nat), e.Ok → f64IsNaN v = false → f64IsNaN w = false →
    f64Lt w v = false → quantize e v = .ok p → quantize e w = .ok q → p ≤ q

/-- Quantize(MIN) = 0 for every spec (R67, property 3). -/
def Obligations.QuantizeOfMinIsZero : Prop :=
  ∀ e : SpecEntry, e.Ok → e.valid = true → quantize e e.min = .ok 0

/-- Quantize(MAX) is n or n - 1, and n - 1 exactly when fl(d * fl(n/d)) < n, with n = 2^W - 1 (R67, property 3 as
corrected). -/
def Obligations.QuantizeOfMaxIsTopOrOneBelow : Prop :=
  ∀ e : SpecEntry, e.Ok → e.valid = true →
    ∃ q, quantize e e.max = .ok q ∧
      (f64Lt (f64Mul (f64Sub e.max e.min)
          (f64Div (f64OfNat (2 ^ e.width.toNat - 1)) (f64Sub e.max e.min)))
        (f64OfNat (2 ^ e.width.toNat - 1)) = true → q = 2 ^ e.width.toNat - 1 - 1) ∧
      (f64Lt (f64Mul (f64Sub e.max e.min)
          (f64Div (f64OfNat (2 ^ e.width.toNat - 1)) (f64Sub e.max e.min)))
        (f64OfNat (2 ^ e.width.toNat - 1)) = false → q = 2 ^ e.width.toNat - 1)

/-- Over the device table, position, speed, kd and torque reach the top code at MAX; kp gives 4094 there and reaches 4095
for no value (R67). -/
def Obligations.DeviceTableTopCodes : Prop :=
  quantize (State.reset.entry 0) (State.reset.entry 0).max = .ok 65535 ∧
  quantize (State.reset.entry 1) (State.reset.entry 1).max = .ok 4095 ∧
  quantize (State.reset.entry 2) (State.reset.entry 2).max = .ok 4094 ∧
  quantize (State.reset.entry 3) (State.reset.entry 3).max = .ok 4095 ∧
  quantize (State.reset.entry 4) (State.reset.entry 4).max = .ok 4095 ∧
  ∀ (v : F64) (q : Nat), quantize (State.reset.entry 2) v = .ok q → q ≤ 4094

/-- The rounding of the binary64 operations is to nearest, ties to even: no finite magnitude m is nearer to num/den than the
result, one as near is another only where the result is even (R14), and the result is an infinity exactly from the midpoint
above the largest finite magnitude on. That overflow threshold is IEEE 754's, to which R14 leaves it: DEDUCED (log 5). -/
def Obligations.RoundingIsToNearestTiesToEven : Prop :=
  ∀ num den : Nat, 0 < den →
    (f64RoundMag num den = 2047 * 2 ^ 52 ↔ (2 ^ 54 - 1) * 2 ^ 2044 * den ≤ num) ∧
    (f64RoundMag num den < 2047 * 2 ^ 52 → ∀ m : Nat, m < 2047 * 2 ^ 52 →
      |(f64Mag (f64Pack false (f64RoundMag num den)) : Int) * den - num| ≤
        |(f64Mag (f64Pack false m) : Int) * den - num| ∧
      (|(f64Mag (f64Pack false (f64RoundMag num den)) : Int) * den - num| =
        |(f64Mag (f64Pack false m) : Int) * den - num| →
        m = f64RoundMag num den ∨ f64RoundMag num den % 2 = 0))

/-- `f64_of_nat` is exact below 2^53, and `trunc` gives the largest integer not above a finite p >= 0, so it reads n back
(R14). -/
def Obligations.IntegersBelow2To53AreExact : Prop :=
  (∀ n : Nat, n < 2 ^ 53 →
    f64IsFinite (f64OfNat n) = true ∧ f64Val (f64OfNat n) = (n : Int) * 2 ^ 1074 ∧ f64Trunc (f64OfNat n) = n) ∧
  ∀ p : F64, f64IsFinite p = true → 0 ≤ f64Val p →
    (f64Trunc p : Int) * 2 ^ 1074 ≤ f64Val p ∧ f64Val p < ((f64Trunc p : Int) + 1) * 2 ^ 1074

/-! ## The packer and the checksum over sequences -/

/-- Bit 7 of PkByte(k) is stream bit 8k and bit 0 is stream bit 8k+7 (R34). -/
def Obligations.PkByteSlicesTheStream : Prop :=
  ∀ (s : State) (k b : Nat), k < 32 → b < 8 →
    (pkByte s.pkBuf k).getLsbD b = s.streamBit (8 * k + 7 - b) ∧
    pkByte s.pkBuf k = s.pkBuf.extractLsb' (248 - 8 * k) 8

/-- The payload as one number P: an append of (v, W) makes it P * 2^W + v, and byte k is (P >> (B - 8k - 8)) mod 256
(R35). -/
def Obligations.PayloadIsOneBigEndianNumber : Prop :=
  (∀ (s t : State) (w : Nat) (v : Word64), s.fault = false → t.fault = false → WidthOk w →
    exec (.pkApp w v) s = .next t → t.streamValue = s.streamValue * 2 ^ w + v.toNat) ∧
  ∀ (s : State) (k : Nat), s.pkBits.toNat ≤ 256 → 8 * k + 8 ≤ s.pkBits.toNat →
    (pkByte s.pkBuf k).toNat = s.streamValue / 2 ^ (s.pkBits.toNat - 8 * k - 8) % 256

/-- PK.CLR, the appends of a field list and PK.FIN leave the concatenation of the fields' bits as the stream, and NBYTES is the
sum of the widths over 8; a sum that is no multiple of 8 faults with PK_ALIGN (R33, R71, R77). -/
def Obligations.PackingAFieldListConcatenatesItsBits : Prop :=
  ∀ (s : State) (fields : List (Nat × Word64)), s.fault = false →
    (∀ f ∈ fields, WidthOk f.1 ∧ f.2.toNat < 2 ^ f.1) → (fields.map Prod.fst).sum ≤ 256 →
    ((fields.map Prod.fst).sum % 8 = 0 →
      ∃ t, runInstrs (.pkClr :: fields.map (fun f => .pkApp f.1 f.2) ++ [.pkFin]) s = .next t ∧
        t = { s with pkBuf := t.pkBuf, pkBits := t.pkBits, pkDone := true, res := t.res } ∧
        t.pkBits.toNat = (fields.map Prod.fst).sum ∧ t.res.toNat = (fields.map Prod.fst).sum / 8 ∧
        (List.range t.pkBits.toNat).map t.streamBit = fields.flatMap fun f => binBits f.1 f.2.toNat) ∧
    ((fields.map Prod.fst).sum % 8 ≠ 0 →
      ∃ t, runInstrs (.pkClr :: fields.map (fun f => .pkApp f.1 f.2) ++ [.pkFin]) s = .next t ∧
        t.fault = true ∧ t.fcode = 7 ∧ t.pkDone = false)

/-- PK.BUILD over the device table packs any five values that are no NaN to 64 bits, 8 bytes: the codes in table order (R62,
R77). -/
def Obligations.BuildPacksTheDevicePayload : Prop :=
  ∀ (s : State) (v0 v1 v2 v3 v4 : F64), s.fault = false → s.spec = State.reset.spec →
    (∀ v ∈ [v0, v1, v2, v3, v4], f64IsNaN v = false) →
    ∃ t q0 q1 q2 q3 q4, runInstrs (pkBuild v0 v1 v2 v3 v4) s = .next t ∧
      quantize (s.entry 0) v0 = .ok q0 ∧ quantize (s.entry 1) v1 = .ok q1 ∧ quantize (s.entry 2) v2 = .ok q2 ∧
      quantize (s.entry 3) v3 = .ok q3 ∧ quantize (s.entry 4) v4 = .ok q4 ∧
      t.fault = false ∧ t.pkDone = true ∧ t.pkBits.toNat = 64 ∧ t.res.toNat = 8 ∧
      t.streamValue = (((q0 * 2 ^ 12 + q1) * 2 ^ 12 + q2) * 2 ^ 12 + q3) * 2 ^ 12 + q4

/-- CS.PK has the effect of CS.ADD of each payload byte in index order (R81). -/
def Obligations.CsPkIsCsAddOfEachByte : Prop :=
  ∀ s : State, s.pkDone = true →
    runInstrs (csBytes ((List.range s.nBytes).map (pkByte s.pkBuf))) s = exec .csPk s

/-- After CS.CLR, or from a zero sum as reset leaves it, and additions of bytes and payloads in any mix, CS.SUM is the sum of
the bytes modulo 256, and any other order of the additions gives the same state (R78). -/
def Obligations.ChecksumIsTheSumModulo256 : Prop :=
  ∀ (s : State) (items : List (Option Byte)), s.fault = false → (none ∈ items → s.pkDone = true) →
    ∃ t, runInstrs (.csClr :: items.map sumItem) s = .next t ∧ t = { s with csSum := t.csSum } ∧
      t.csSum.toNat = (items.map (sumItemValue s)).sum % 256 ∧
      (s.csSum = 0 → runInstrs (items.map sumItem) s = .next t) ∧
      ∀ items' : List (Option Byte), items.Perm items' → runInstrs (.csClr :: items'.map sumItem) s = .next t

/-- CS.FRAME over a sealed payload leaves in RES and CS.SUM the checksum of prefix, payload, address and mode, the prefix AA AF
0F A1, and changes nothing else; over an unsealed one its CS.PK faults with PK_STATE (R62, R78, R81). -/
def Obligations.CsFrameComputesTheFrameChecksum : Prop :=
  ∀ (s : State) (a m : Byte), s.fault = false →
    (s.pkDone = true →
      ∃ t, runInstrs (csFrame a m) s = .next t ∧ t = { s with csSum := t.csSum, res := t.res } ∧
        t.csSum.toNat =
          (0xAA + 0xAF + 0x0F + 0xA1 + ((List.range (s.pkBits.toNat / 8)).map fun k => (pkByte s.pkBuf k).toNat).sum
            + a.toNat + m.toNat) % 256 ∧
        t.res.toNat = t.csSum.toNat) ∧
    (s.pkDone = false →
      ∃ t, runInstrs (csFrame a m) s = .next t ∧ t = { s with csSum := t.csSum, fault := true, fcode := 8 })

/-! ## The assembler -/

/-- Every instruction that a line stands for is well-formed; a text of lines assembles, line by line in order, to the encodings
of the instructions its lines stand for, and only if each line has a form of R61 or R62; the commands decode to just these
instructions; the operand words a command does not use are 0. That a line ends at a line feed, and that one line outside the
forms keeps the whole text from assembling, are the MODEL's choice (log 15): R61 says only that there is one command per line. -/
def Obligations.AssembledCommandsDecode : Prop :=
  (∀ (line : List Char) (is : List Instr), assembleLine line = some is → ∀ i ∈ is, i.WellFormed) ∧
  (∀ (text : List Char) (cs : List Command), assemble text = some cs → ∀ c ∈ cs,
    (c.opc ∉ ([0x01, 0x03, 0x11, 0x12] : List Byte) → c.opa = 0) ∧ (c.opc ≠ 0x01 → c.opb = 0)) ∧
  ∀ (lines : List (List Char)) (cs : List Command), lines ≠ [] → (∀ line ∈ lines, '\n' ∉ line) →
    (assemble (List.intercalate ['\n'] lines) = some cs ↔
      ∃ parts, List.Forall₂ (fun line is => assembleLine line = some is) lines parts ∧
        cs = parts.flatten.map encode) ∧
    (assemble (List.intercalate ['\n'] lines) = some cs →
      ∃ parts, List.Forall₂ (fun line is => assembleLine line = some is) lines parts ∧
        cs.map decode = parts.flatten.map .ok)

/-- Which instruction a line of each form of R61 stands for: exactly one with the operands' values, `idx` 0..7, `W` 1..32, `k`,
`b` and a selector 0..255, `u` below 2^64, and none where an operand is not so. A comment is skipped, and a line without a
command stands for none. The spaces of a line and the selector's range are the MODEL's choice (log 15), and so is that `idx`,
`W`, `k`, `b` and a selector have the literal forms of `u` (log 19). -/
def Obligations.AssemblerFormsStandForTheirInstructions : Prop :=
  assembleLine "NOP".toList = some [.nop] ∧ assembleLine "PK.CLR".toList = some [.pkClr] ∧
  assembleLine "PK.FIN".toList = some [.pkFin] ∧ assembleLine "CS.CLR".toList = some [.csClr] ∧
  assembleLine "CS.PK".toList = some [.csPk] ∧ assembleLine "CS.RD".toList = some [.csRd] ∧
  assembleLine [] = some [] ∧
  (∀ line comment : List Char, ';' ∉ line → assembleLine (line ++ ';' :: comment) = assembleLine line) ∧
  (∀ (a : List Char) (is : List Instr), OperandText a →
    (assembleLine (formLine "PK.RD".toList [a]) = some is ↔
      ∃ k : Byte, readNat a = some k.toNat ∧ is = [.pkRd k]) ∧
    (assembleLine (formLine "CS.ADD".toList [a]) = some is ↔
      ∃ b : Byte, readNat a = some b.toNat ∧ is = [.csAdd b])) ∧
  (∀ (a b : List Char) (is : List Instr), OperandText a → OperandText b →
    (assembleLine (formLine "SPEC.RD".toList [a, b]) = some is ↔
      ∃ (idx : SpecIdx) (sel : Byte), readNat a = some idx.val ∧ readNat b = some sel.toNat ∧
        is = [.specRd idx sel]) ∧
    (assembleLine (formLine "QUANT".toList [a, b]) = some is ↔
      ∃ (idx : SpecIdx) (v : F64), readNat a = some idx.val ∧ readReal b = some v ∧ is = [.quant idx v]) ∧
    (assembleLine (formLine "PK.QAPP".toList [a, b]) = some is ↔
      ∃ (idx : SpecIdx) (v : F64), readNat a = some idx.val ∧ readReal b = some v ∧ is = [.pkQapp idx v]) ∧
    (assembleLine (formLine "PK.APP".toList [a, b]) = some is ↔
      ∃ (w : Nat) (u : Word64), readNat a = some w ∧ 1 ≤ w ∧ w ≤ 32 ∧ readNat b = some u.toNat ∧
        is = [.pkApp w u])) ∧
  (∀ (a b c d : List Char) (is : List Instr),
    OperandText a → OperandText b → OperandText c → OperandText d →
    (assembleLine (formLine "SPEC.WR".toList [a, b, c, d]) = some is ↔
      ∃ (idx : SpecIdx) (w : Nat) (mn mx : F64), readNat a = some idx.val ∧ readNat b = some w ∧ 1 ≤ w ∧ w ≤ 32 ∧
        readReal c = some mn ∧ readReal d = some mx ∧ is = [.specWr idx w mn mx]))

/-- The pseudo-commands expand as R62 says, with operands as R61 reads them, and do not assemble where an operand does not read.
The spaces of a line and the ranges of address and mode are the MODEL's choice (log 15), and so is that a byte, an address and a
mode have the literal forms of `u` (log 19). -/
def Obligations.PseudoCommandsExpand : Prop :=
  (∀ (a b c d e : List Char) (is : List Instr),
    OperandText a → OperandText b → OperandText c → OperandText d → OperandText e →
    (assembleLine (formLine "PK.BUILD".toList [a, b, c, d, e]) = some is ↔
      ∃ v0 v1 v2 v3 v4 : F64, readReal a = some v0 ∧ readReal b = some v1 ∧ readReal c = some v2 ∧
        readReal d = some v3 ∧ readReal e = some v4 ∧
        is = [.pkClr, .pkQapp 0 v0, .pkQapp 1 v1, .pkQapp 2 v2, .pkQapp 3 v3, .pkQapp 4 v4, .pkFin])) ∧
  (∀ (ops : List (List Char)) (is : List Instr), ops ≠ [] → (∀ op ∈ ops, OperandText op) →
    (assembleLine (formLine "CS.BYTES".toList ops) = some is ↔
      ∃ bytes : List Byte, List.Forall₂ (fun op b => readNat op = some b.toNat) ops bytes ∧
        is = bytes.map .csAdd)) ∧
  ∀ (a b : List Char) (is : List Instr), OperandText a → OperandText b →
    (assembleLine (formLine "CS.FRAME".toList [a, b]) = some is ↔
      ∃ addr mode : Byte, readNat a = some addr.toNat ∧ readNat b = some mode.toNat ∧
        is = [.csClr, .csAdd 0xAA, .csAdd 0xAF, .csAdd 0x0F, .csAdd 0xA1, .csPk, .csAdd addr, .csAdd mode, .csRd])

/-- The value of a literal (R61): decimal and `0x` hexadecimal digits, raw binary64 bits, and a decimal number, with or without
a fraction and a sign, as the rounding of its exact value. The sign's form and that -0 gives -0.0 are the MODEL's choice
(log 15), and so is that the integer forms, which R61 gives for `u`, are those of every integer operand (log 19). -/
def Obligations.LiteralsHaveTheirValues : Prop :=
  (∀ k n : Nat, 0 < k → n < 10 ^ k → readNat (digitText 10 k n) = some n) ∧
  (∀ k n : Nat, 0 < k → n < 16 ^ k → readNat ('0' :: 'x' :: digitText 16 k n) = some n) ∧
  (∀ v : F64, readReal ("f64:0x".toList ++ digitText 16 16 v.toNat) = some v) ∧
  (∀ k n : Nat, 0 < k → n < 10 ^ k →
    readReal (digitText 10 k n) = some (f64Pack false (f64RoundMag (n * 2 ^ 1074) 1)) ∧
    readReal ('-' :: digitText 10 k n) = some (f64Pack true (f64RoundMag (n * 2 ^ 1074) 1))) ∧
  ∀ k n j f : Nat, 0 < k → n < 10 ^ k → 0 < j → f < 10 ^ j →
    readReal (digitText 10 k n ++ '.' :: digitText 10 j f)
      = some (f64Pack false (f64RoundMag ((n * 10 ^ j + f) * 2 ^ 1074) (10 ^ j))) ∧
    readReal ('-' :: (digitText 10 k n ++ '.' :: digitText 10 j f))
      = some (f64Pack true (f64RoundMag ((n * 10 ^ j + f) * 2 ^ 1074) (10 ^ j)))
end

