-- ==== Sys2Proof/Laws/Assembler.lean ====
section
/-! SUPPORT. What the readers of assembler text do with pieces, blanks and lines of R61's forms. -/

namespace Sys2Proof.Machine

/-! ## Pieces and lines -/

theorem splitAtChar_plain {sep : Char} {a : List Char} (h : sep ∉ a) : splitAtChar sep a = [a] := by
  induction a with
  | nil => rfl
  | cons c cs ih =>
    rw [List.mem_cons, not_or] at h
    simp [splitAtChar, Ne.symm h.1, ih h.2]

/-- The text before the first separator is the first piece. -/
theorem splitAtChar_append {sep : Char} {a : List Char} (b : List Char) (h : sep ∉ a) :
    splitAtChar sep (a ++ sep :: b) = a :: splitAtChar sep b := by
  induction a with
  | nil => simp [splitAtChar]
  | cons c cs ih =>
    rw [List.mem_cons, not_or] at h
    simp [splitAtChar, Ne.symm h.1, ih h.2]

/-- A text that neither begins nor ends with a blank is its own trimmed form. -/
theorem trimBlanks_id {a : List Char} (h : ∀ c ∈ a.head?, isBlank c = false)
    (h' : ∀ c ∈ a.getLast?, isBlank c = false) : trimBlanks a = a := by
  have hd : ∀ l : List Char, (∀ c ∈ l.head?, isBlank c = false) → l.dropWhile isBlank = l := fun l hl => by
    cases l with
    | nil => rfl
    | cons c cs => simp [List.dropWhile, hl c (by simp)]
  rw [trimBlanks, hd a h, hd a.reverse (by simpa using h'), List.reverse_reverse]

theorem trimBlanks_space (a : List Char) : trimBlanks (' ' :: a) = trimBlanks a := by
  simp [trimBlanks, List.dropWhile, isBlank]

theorem OperandText.trimBlanks_eq {a : List Char} (h : OperandText a) : trimBlanks a = a :=
  trimBlanks_id (fun c hc => (h.2 c (List.mem_of_mem_head? hc)).1)
    (fun c hc => (h.2 c (List.mem_of_mem_getLast? hc)).1)

/-- The operands of a line of R61 are read back one by one. -/
theorem splitOperands_pieces {op : List Char} {ops : List (List Char)} (h : OperandText op)
    (hs : ∀ o ∈ ops, OperandText o) :
    (splitAtChar ',' (' ' :: (op ++ ops.flatMap fun o => ',' :: ' ' :: o))).map trimBlanks = op :: ops := by
  induction ops generalizing op with
  | nil =>
    have : ',' ∉ ' ' :: op := by
      rw [List.mem_cons, not_or]
      exact ⟨by decide, fun hc => (h.2 _ hc).2.1 rfl⟩
    simp [splitAtChar_plain this, trimBlanks_space, h.trimBlanks_eq]
  | cons o os ih =>
    have : ',' ∉ ' ' :: op := by
      rw [List.mem_cons, not_or]
      exact ⟨by decide, fun hc => (h.2 _ hc).2.1 rfl⟩
    have hp := splitAtChar_append (' ' :: (o ++ os.flatMap fun o => ',' :: ' ' :: o)) this
    simp only [List.flatMap_cons, List.cons_append] at hp ⊢
    rw [hp, List.map_cons, trimBlanks_space, h.trimBlanks_eq,
      ih (hs o (by simp)) (fun x hx => hs x (by simp [hx]))]

/-- The last character of a line of R61 is its last operand's. -/
theorem getLast_pieces {op : List Char} {ops : List (List Char)} (h : OperandText op)
    (hs : ∀ o ∈ ops, OperandText o) :
    ∀ c ∈ (op ++ ops.flatMap fun o => ',' :: ' ' :: o).getLast?, isBlank c = false := by
  induction ops generalizing op with
  | nil => simpa using fun c hc => (h.2 c (List.mem_of_mem_getLast? hc)).1
  | cons o os ih =>
    have ho := hs o (by simp)
    have hne : o ++ (os.flatMap fun o => ',' :: ' ' :: o) ≠ [] := by simp [ho.1]
    have he : (op ++ (o :: os).flatMap fun o => ',' :: ' ' :: o)
        = (op ++ [',', ' ']) ++ (o ++ os.flatMap fun o => ',' :: ' ' :: o) := by simp
    rw [he, List.getLast?_append_of_ne_nil _ hne]
    exact ih ho fun x hx => hs x (by simp [hx])

/-- A line of R61 assembles as its mnemonic with its operands: the blanks and commas of the form are read away. -/
theorem assembleLine_formLine {m : List Char} {ops : List (List Char)} (hm : OperandText m)
    (hs : ∀ o ∈ ops, OperandText o) : assembleLine (formLine m ops) = assembleForm m ops := by
  have hb : ∀ c ∈ m, (!isBlank c) = true := fun c hc => by simp [(hm.2 c hc).1]
  cases ops with
  | nil =>
    have ht : m.takeWhile (· != ';') = m := List.takeWhile_eq_self_iff.2 fun c hc => by simp [(hm.2 c hc).2.2]
    have h1 : m.takeWhile (!isBlank ·) = m := List.takeWhile_eq_self_iff.2 hb
    have h2 : m.dropWhile (!isBlank ·) = [] := List.dropWhile_eq_nil_iff.2 hb
    have h0 : trimBlanks [] = [] := rfl
    simp only [assembleLine, formLine, ht, hm.trimBlanks_eq, h1, h2, splitOperands, h0]
    simp [hm.1]
  | cons op os =>
    have ho := hs op (by simp)
    have hos : ∀ o ∈ os, OperandText o := fun o h => hs o (by simp [h])
    have hsemi : ∀ c ∈ formLine m (op :: os), (c != ';') = true := fun c hc => by
      simp only [formLine, List.mem_append, List.mem_cons, List.mem_flatMap] at hc
      rcases hc with hc | rfl | hc | ⟨o, hx, rfl | rfl | hc⟩
      · simp [(hm.2 c hc).2.2]
      · decide
      · simp [(ho.2 c hc).2.2]
      · decide
      · decide
      · simp [((hos o hx).2 c hc).2.2]
    have ht := List.takeWhile_eq_self_iff.2 hsemi
    have htrim : trimBlanks (formLine m (op :: os)) = formLine m (op :: os) := by
      refine trimBlanks_id (fun c hc => ?_) ?_
      · obtain ⟨d, ds, rfl⟩ := List.exists_cons_of_ne_nil hm.1
        simp only [formLine, List.cons_append, List.head?_cons, Option.mem_some_iff] at hc
        exact (hm.2 c (by simp [hc])).1
      · have hne : op ++ (os.flatMap fun o => ',' :: ' ' :: o) ≠ [] := by simp [ho.1]
        have he : formLine m (op :: os) = (m ++ [' ']) ++ (op ++ os.flatMap fun o => ',' :: ' ' :: o) := by
          simp [formLine]
        rw [he, List.getLast?_append_of_ne_nil _ hne]
        exact getLast_pieces ho hos
    have h1 : (formLine m (op :: os)).takeWhile (!isBlank ·) = m := by
      rw [formLine, List.takeWhile_append_of_pos hb]; simp [isBlank]
    have h2 : (formLine m (op :: os)).dropWhile (!isBlank ·)
        = ' ' :: (op ++ os.flatMap fun o => ',' :: ' ' :: o) := by
      rw [formLine, List.dropWhile_append_of_pos hb]; simp [List.dropWhile, isBlank]
    have hne : formLine m (op :: os) ≠ [] := by simp [formLine]
    have hrest : trimBlanks (' ' :: (op ++ os.flatMap fun o => ',' :: ' ' :: o))
        = op ++ os.flatMap fun o => ',' :: ' ' :: o := by
      rw [trimBlanks_space]
      refine trimBlanks_id (fun c hc => ?_) (getLast_pieces ho hos)
      obtain ⟨d, ds, hd⟩ := List.exists_cons_of_ne_nil ho.1
      rw [hd, List.cons_append, List.head?_cons, Option.mem_some_iff] at hc
      exact (ho.2 c (by simp [hd, hc])).1
    simp only [assembleLine, ht, htrim, h1, h2, splitOperands, hrest, splitOperands_pieces ho hos]
    simp [hne, ho.1]

/-! ## Operands -/

/-- A byte operand reads as b just if its integer is b (R61). -/
theorem readByte_eq_some {a : List Char} {b : Byte} : readByte a = some b ↔ readNat a = some b.toNat := by
  unfold readByte
  cases readNat a with
  | none => simp
  | some n =>
    have := b.isLt
    by_cases h : n < 256
    · simpa [h] using ⟨by rintro rfl; simp; omega, by rintro rfl; simp⟩
    · simp [h]; omega

/-- `u` reads as v just if its integer is v (R61). -/
theorem readU64_eq_some {a : List Char} {v : Word64} : readU64 a = some v ↔ readNat a = some v.toNat := by
  unfold readU64
  cases readNat a with
  | none => simp
  | some n =>
    have := v.isLt
    by_cases h : n < 2 ^ 64
    · simp only [if_pos h, Option.some.injEq]
      exact ⟨by rintro rfl; simp; omega, by rintro rfl; simp⟩
    · simp only [if_neg h, Option.some.injEq]
      exact ⟨by simp, by rintro rfl; omega⟩

/-- `idx` reads as an entry just if its integer is that entry's (R61). -/
theorem readIdx_eq_some {a : List Char} {idx : SpecIdx} : readIdx a = some idx ↔ readNat a = some idx.val := by
  unfold readIdx
  cases readNat a with
  | none => simp
  | some n =>
    have := idx.isLt
    by_cases h : n < Config.nspec
    · simp [h, Fin.ext_iff]
    · simp [h]; omega

/-- `W` reads as w just if its integer is w and a width (R61). -/
theorem readWidth_eq_some {a : List Char} {w : Nat} : readWidth a = some w ↔ readNat a = some w ∧ WidthOk w := by
  unfold readWidth
  cases readNat a with
  | none => simp
  | some n =>
    by_cases h : WidthOk n
    · simp only [if_pos h, Option.some.injEq]
      exact ⟨fun e => ⟨e, e ▸ h⟩, And.left⟩
    · simp only [if_neg h, Option.some.injEq]
      exact ⟨by simp, fun e => absurd (e.1 ▸ e.2) h⟩

/-- A list of texts reads as a list of values just if each text reads as its value. -/
theorem readAll_eq_some {α : Type} {read : List Char → Option α} {texts : List (List Char)} {values : List α} :
    readAll read texts = some values ↔ List.Forall₂ (fun t v => read t = some v) texts values := by
  induction texts generalizing values with
  | nil => simp [readAll]
  | cons t ts ih =>
    unfold readAll
    cases values <;> cases hr : read t <;> cases h : readAll read ts <;> simp [hr, ← ih, h]

end Sys2Proof.Machine
end

