-- ==== Sys2Proof/Laws/Binary64.lean ====
section
/-! SUPPORT. The fields of a packed pattern, and the two laws of the rounding from which bounds on binary64 results follow: it is
monotonic, and it keeps every finite magnitude. -/

namespace Sys2Proof.Machine

/-! ## Packed patterns -/

theorem f64Pack_toNat (neg : Bool) (m : Nat) (h : m < 2 ^ 63) :
    (f64Pack neg m).toNat = neg.toNat * 2 ^ 63 + m := by
  have hb : (BitVec.ofBool neg).toNat = neg.toNat := by cases neg <;> rfl
  rw [f64Pack, BitVec.toNat_append, hb, BitVec.toNat_ofNat, Nat.mod_eq_of_lt h, Nat.shiftLeft_eq, Nat.mul_comm]
  rw [Nat.mul_comm, ← Nat.shiftLeft_eq, Nat.shiftLeft_add_eq_or_of_lt h]

@[simp] theorem f64Sign_pack (neg : Bool) (m : Nat) : f64Sign (f64Pack neg m) = neg := by
  rw [f64Sign, f64Pack, BitVec.getLsbD_append]; simp

theorem f64Exp_eq (a : F64) : f64Exp a = a.toNat / 2 ^ 52 % 2 ^ 11 := by
  simp [f64Exp, BitVec.extractLsb'_toNat, Nat.shiftRight_eq_div_pow]

theorem f64Frac_eq (a : F64) : f64Frac a = a.toNat % 2 ^ 52 := by
  simp [f64Frac, BitVec.extractLsb'_toNat]

theorem f64Exp_pack (neg : Bool) (m : Nat) (h : m < 2 ^ 63) : f64Exp (f64Pack neg m) = m / 2 ^ 52 := by
  rw [f64Exp_eq, f64Pack_toNat neg m h]
  cases neg <;> simp only [Bool.toNat_false, Bool.toNat_true] <;> omega

theorem f64Frac_pack (neg : Bool) (m : Nat) (h : m < 2 ^ 63) : f64Frac (f64Pack neg m) = m % 2 ^ 52 := by
  rw [f64Frac_eq, f64Pack_toNat neg m h]
  cases neg <;> simp only [Bool.toNat_false, Bool.toNat_true] <;> omega

/-- The magnitude of a pattern of bits 62:0 equal to m below 2^53 is m itself. -/
theorem f64Mag_pack_small (neg : Bool) (m : Nat) (h : m < 2 ^ 53) : f64Mag (f64Pack neg m) = m := by
  have h63 : m < 2 ^ 63 := by omega
  rw [f64Mag, f64Exp_pack neg m h63, f64Frac_pack neg m h63]
  by_cases h0 : m / 2 ^ 52 = 0
  · rw [if_pos h0]; omega
  · rw [if_neg h0]
    have : m / 2 ^ 52 - 1 = 0 := by omega
    rw [this]; omega

/-- The magnitude of a pattern with k + 1 in the exponent bits and significand s. -/
theorem f64Mag_pack_normal (neg : Bool) (k s : Nat) (hk : k < 2047) (h1 : 2 ^ 52 ≤ s) (h2 : s < 2 ^ 53) :
    f64Mag (f64Pack neg (k * 2 ^ 52 + s)) = s * 2 ^ k := by
  have h63 : k * 2 ^ 52 + s < 2 ^ 63 := by omega
  rw [f64Mag, f64Exp_pack neg _ h63, f64Frac_pack neg _ h63]
  have he : (k * 2 ^ 52 + s) / 2 ^ 52 = k + 1 := by omega
  have hf : 2 ^ 52 + (k * 2 ^ 52 + s) % 2 ^ 52 = s := by omega
  rw [he, if_neg (by omega), hf, Nat.add_sub_cancel]

/-- A pattern below the infinities is finite and no NaN. -/
theorem f64IsFinite_pack (neg : Bool) (m : Nat) (h : m < 2047 * 2 ^ 52) : f64IsFinite (f64Pack neg m) = true := by
  have h63 : m < 2 ^ 63 := by omega
  simp only [f64IsFinite, f64Exp_pack neg m h63, bne_iff_ne, ne_eq]
  omega

/-! ## Rounding to an integer -/

theorem roundHalfEven_exact (n den : Nat) (h : 0 < den) : roundHalfEven (n * den) den = n := by
  simp [roundHalfEven, Nat.mul_div_cancel n h]
  omega

theorem le_roundHalfEven (num den : Nat) : num / den ≤ roundHalfEven num den := by
  unfold roundHalfEven; split
  · omega
  · split <;> omega

theorem roundHalfEven_le (num den : Nat) : roundHalfEven num den ≤ num / den + 1 := by
  unfold roundHalfEven; split
  · omega
  · split
    · have := Nat.mod_lt (num / den) (show 0 < 2 by omega); omega
    · omega

/-- Rounding to nearest, ties to even, is monotonic in the quotient. -/
theorem roundHalfEven_mono {a b c d : Nat} (hb : 0 < b) (hd : 0 < d) (h : a * d ≤ c * b) :
    roundHalfEven a b ≤ roundHalfEven c d := by
  have hq : a / b ≤ c / d := by
    rw [Nat.le_div_iff_mul_le hd]
    have h1 : a / b * b ≤ a := Nat.div_mul_le_self a b
    refine Nat.le_of_mul_le_mul_right ?_ hb
    calc a / b * d * b = a / b * b * d := by ring
      _ ≤ a * d := Nat.mul_le_mul_right d h1
      _ ≤ c * b := h
  rcases Nat.lt_or_ge (a / b) (c / d) with hlt | hge
  · exact le_trans (roundHalfEven_le a b) (le_trans hlt (le_roundHalfEven c d))
  · have he : a / b = c / d := Nat.le_antisymm hq hge
    have ha := Nat.div_add_mod a b
    have hc := Nat.div_add_mod c d
    have hr : a % b * d ≤ c % d * b := by
      rw [← ha, ← hc, ← he] at h
      have : b * (a / b) * d = d * (a / b) * b := by ring
      rw [Nat.add_mul, Nat.add_mul, this] at h
      exact Nat.le_of_add_le_add_left h
    have hhalf : b ≤ 2 * (a % b) → d ≤ 2 * (c % d) := fun hh => by
      refine Nat.le_of_mul_le_mul_right ?_ hb
      calc d * b = b * d := Nat.mul_comm d b
        _ ≤ 2 * (a % b) * d := Nat.mul_le_mul_right d hh
        _ = 2 * (a % b * d) := by ring
        _ ≤ 2 * (c % d * b) := Nat.mul_le_mul_left 2 hr
        _ = 2 * (c % d) * b := by ring
    have hstrict : b < 2 * (a % b) → d < 2 * (c % d) := fun hh => by
      refine Nat.lt_of_mul_lt_mul_right (a := b) ?_
      calc d * b = b * d := Nat.mul_comm d b
        _ < 2 * (a % b) * d := Nat.mul_lt_mul_of_pos_right hh hd
        _ = 2 * (a % b * d) := by ring
        _ ≤ 2 * (c % d * b) := Nat.mul_le_mul_left 2 hr
        _ = 2 * (c % d) * b := by ring
    unfold roundHalfEven
    rw [he]
    split_ifs <;> omega

/-! ## Rounding to a magnitude -/

/-- The significand before packing is at most 2^53. -/
theorem round_significand_le (num den : Nat) (h : 0 < den) :
    roundHalfEven num (den * 2 ^ f64Shift num den) ≤ 2 ^ 53 := by
  have hd : 0 < den * 2 ^ f64Shift num den := Nat.mul_pos h (Nat.two_pow_pos _)
  rw [← roundHalfEven_exact (2 ^ 53) _ hd]
  refine roundHalfEven_mono hd hd (Nat.mul_le_mul_right _ ?_)
  have h1 : num / den < 2 ^ (Nat.log2 (num / den) + 1) := Nat.lt_log2_self
  have h2 : num / den < 2 ^ (53 + f64Shift num den) :=
    lt_of_lt_of_le h1 (Nat.pow_le_pow_right (by omega) (by unfold f64Shift; omega))
  have h3 : num < 2 ^ (53 + f64Shift num den) * den := (Nat.div_lt_iff_lt_mul h).1 h2
  rw [Nat.pow_add] at h3
  calc num ≤ 2 ^ 53 * 2 ^ f64Shift num den * den := le_of_lt h3
    _ = 2 ^ 53 * (den * 2 ^ f64Shift num den) := by ring

/-- Where low bits are dropped the significand is at least 2^52. -/
theorem le_round_significand (num den : Nat) (hk : 0 < f64Shift num den) :
    2 ^ 52 ≤ roundHalfEven num (den * 2 ^ f64Shift num den) := by
  refine le_trans ?_ (le_roundHalfEven _ _)
  rw [← Nat.div_div_eq_div_mul, Nat.le_div_iff_mul_le (Nat.two_pow_pos _), ← Nat.pow_add]
  have h0 : num / den ≠ 0 := fun h0 => by simp [f64Shift, h0] at hk
  have : 52 + f64Shift num den = Nat.log2 (num / den) := by unfold f64Shift at hk ⊢; omega
  rw [this]
  exact Nat.log2_self_le h0

theorem f64Shift_mono {a b c d : Nat} (hb : 0 < b) (hd : 0 < d) (h : a * d ≤ c * b) :
    f64Shift a b ≤ f64Shift c d := by
  have hq : a / b ≤ c / d := by
    rw [Nat.le_div_iff_mul_le hd]
    refine Nat.le_of_mul_le_mul_right ?_ hb
    calc a / b * d * b = a / b * b * d := by ring
      _ ≤ a * d := Nat.mul_le_mul_right d (Nat.div_mul_le_self a b)
      _ ≤ c * b := h
  unfold f64Shift
  by_cases h0 : a / b = 0
  · simp [h0]
  · have hc : c / d ≠ 0 := fun hc => h0 (Nat.le_zero.1 (hc ▸ hq))
    have : Nat.log2 (a / b) ≤ Nat.log2 (c / d) :=
      (Nat.le_log2 hc).2 (le_trans (Nat.log2_self_le h0) hq)
    omega

/-- The rounding of R14 is monotonic in the exact value. -/
theorem f64RoundMag_mono {a b c d : Nat} (hb : 0 < b) (hd : 0 < d) (h : a * d ≤ c * b) :
    f64RoundMag a b ≤ f64RoundMag c d := by
  refine min_le_min_right _ ?_
  rcases Nat.lt_or_ge (f64Shift a b) (f64Shift c d) with hlt | hge
  · have h1 := round_significand_le a b hb
    have h2 := le_round_significand c d (by omega)
    omega
  · have he : f64Shift a b = f64Shift c d := Nat.le_antisymm (f64Shift_mono hb hd h) hge
    rw [he]
    refine Nat.add_le_add_left (roundHalfEven_mono (Nat.mul_pos hb (Nat.two_pow_pos _))
      (Nat.mul_pos hd (Nat.two_pow_pos _)) ?_) _
    calc a * (d * 2 ^ f64Shift c d) = a * d * 2 ^ f64Shift c d := by ring
      _ ≤ c * b * 2 ^ f64Shift c d := Nat.mul_le_mul_right _ h
      _ = c * (b * 2 ^ f64Shift c d) := by ring

theorem f64Shift_of_log2 (n den : Nat) (h : 0 < den) : f64Shift (n * den) den = Nat.log2 n - 52 := by
  rw [f64Shift, Nat.mul_div_cancel n h]

/-- A magnitude of at most 53 significant bits and no more than 2046 dropped ones is kept. -/
theorem f64RoundMag_normal (k s den : Nat) (h : 0 < den) (hk : k < 2046) (h1 : 2 ^ 52 ≤ s) (h2 : s < 2 ^ 53) :
    f64RoundMag (s * 2 ^ k * den) den = k * 2 ^ 52 + s := by
  have hlog : Nat.log2 (s * 2 ^ k) = 52 + k := by
    refine (Nat.log2_eq_iff (Nat.mul_ne_zero (by omega) (by positivity))).2 ⟨?_, ?_⟩
    · rw [Nat.pow_add]; exact Nat.mul_le_mul_right _ h1
    · rw [show 52 + k + 1 = 53 + k by omega, Nat.pow_add]
      exact Nat.mul_lt_mul_of_pos_right h2 (Nat.two_pow_pos _)
  have hsh : f64Shift (s * 2 ^ k * den) den = k := by rw [f64Shift_of_log2 _ _ h, hlog]; omega
  have he : s * 2 ^ k * den = s * (den * 2 ^ k) := by ring
  simp only [f64RoundMag, hsh]
  rw [he, roundHalfEven_exact _ _ (Nat.mul_pos h (Nat.two_pow_pos _))]
  omega

theorem f64RoundMag_small (m den : Nat) (h : 0 < den) (hm : m < 2 ^ 53) : f64RoundMag (m * den) den = m := by
  have hsh : f64Shift (m * den) den = 0 := by
    rw [f64Shift_of_log2 _ _ h]
    by_cases h0 : m = 0
    · simp [h0]
    · have := (Nat.log2_lt h0).2 hm; omega
  simp only [f64RoundMag, hsh, Nat.pow_zero, Nat.mul_one]
  rw [roundHalfEven_exact _ _ h]
  omega

/-- The rounding keeps every finite magnitude: it answers the pattern the magnitude came from. -/
theorem f64RoundMag_exact (neg : Bool) (m den : Nat) (h : 0 < den) (hm : m < 2047 * 2 ^ 52) :
    f64RoundMag (f64Mag (f64Pack neg m) * den) den = m := by
  rcases Nat.lt_or_ge m (2 ^ 53) with hs | hl
  · rw [f64Mag_pack_small neg m hs, f64RoundMag_small m den h hs]
  · have hm' : m = (m / 2 ^ 52 - 1) * 2 ^ 52 + (2 ^ 52 + m % 2 ^ 52) := by omega
    have hk : m / 2 ^ 52 - 1 < 2046 := by omega
    have hmag := f64Mag_pack_normal neg (m / 2 ^ 52 - 1) (2 ^ 52 + m % 2 ^ 52) (by omega) (by omega) (by omega)
    rw [← hm'] at hmag
    rw [hmag, f64RoundMag_normal _ _ _ h hk (by omega) (by omega)]
    omega

end Sys2Proof.Machine
end

