-- ==== Sys2Proof/Laws/State.lean ====
section
/-! SUPPORT. One lemma per field per update of State, each true by unfolding once. -/

namespace Sys2Proof.Machine

@[simp] theorem State.takeFault_spec (s : State) (c : FaultCode) : (s.takeFault c).spec = s.spec := rfl
@[simp] theorem State.takeFault_pkBuf (s : State) (c : FaultCode) : (s.takeFault c).pkBuf = s.pkBuf := rfl
@[simp] theorem State.takeFault_pkBits (s : State) (c : FaultCode) : (s.takeFault c).pkBits = s.pkBits := rfl
@[simp] theorem State.takeFault_pkDone (s : State) (c : FaultCode) : (s.takeFault c).pkDone = s.pkDone := rfl
@[simp] theorem State.takeFault_csSum (s : State) (c : FaultCode) : (s.takeFault c).csSum = s.csSum := rfl
@[simp] theorem State.takeFault_res (s : State) (c : FaultCode) : (s.takeFault c).res = s.res := rfl
@[simp] theorem State.takeFault_fault (s : State) (c : FaultCode) : (s.takeFault c).fault = true := rfl
@[simp] theorem State.takeFault_fcode (s : State) (c : FaultCode) : (s.takeFault c).fcode = c.code := rfl
@[simp] theorem State.takeFault_program (s : State) (c : FaultCode) : (s.takeFault c).program = s.program := rfl
@[simp] theorem State.takeFault_pc (s : State) (c : FaultCode) : (s.takeFault c).pc = s.pc := rfl
@[simp] theorem State.takeFault_responses (s : State) (c : FaultCode) : (s.takeFault c).responses = s.responses := rfl

@[simp] theorem State.setRes_spec (s : State) (v : Word64) : (s.setRes v).spec = s.spec := rfl
@[simp] theorem State.setRes_pkBuf (s : State) (v : Word64) : (s.setRes v).pkBuf = s.pkBuf := rfl
@[simp] theorem State.setRes_pkBits (s : State) (v : Word64) : (s.setRes v).pkBits = s.pkBits := rfl
@[simp] theorem State.setRes_pkDone (s : State) (v : Word64) : (s.setRes v).pkDone = s.pkDone := rfl
@[simp] theorem State.setRes_csSum (s : State) (v : Word64) : (s.setRes v).csSum = s.csSum := rfl
@[simp] theorem State.setRes_res (s : State) (v : Word64) : (s.setRes v).res = v := rfl
@[simp] theorem State.setRes_fault (s : State) (v : Word64) : (s.setRes v).fault = s.fault := rfl
@[simp] theorem State.setRes_fcode (s : State) (v : Word64) : (s.setRes v).fcode = s.fcode := rfl
@[simp] theorem State.setRes_program (s : State) (v : Word64) : (s.setRes v).program = s.program := rfl
@[simp] theorem State.setRes_pc (s : State) (v : Word64) : (s.setRes v).pc = s.pc := rfl
@[simp] theorem State.setRes_responses (s : State) (v : Word64) : (s.setRes v).responses = s.responses := rfl

@[simp] theorem State.setEntry_spec (s : State) (idx : SpecIdx) (e : SpecEntry) : (s.setEntry idx e).spec = s.spec.set idx.val e idx.isLt := rfl
@[simp] theorem State.setEntry_pkBuf (s : State) (idx : SpecIdx) (e : SpecEntry) : (s.setEntry idx e).pkBuf = s.pkBuf := rfl
@[simp] theorem State.setEntry_pkBits (s : State) (idx : SpecIdx) (e : SpecEntry) : (s.setEntry idx e).pkBits = s.pkBits := rfl
@[simp] theorem State.setEntry_pkDone (s : State) (idx : SpecIdx) (e : SpecEntry) : (s.setEntry idx e).pkDone = s.pkDone := rfl
@[simp] theorem State.setEntry_csSum (s : State) (idx : SpecIdx) (e : SpecEntry) : (s.setEntry idx e).csSum = s.csSum := rfl
@[simp] theorem State.setEntry_res (s : State) (idx : SpecIdx) (e : SpecEntry) : (s.setEntry idx e).res = s.res := rfl
@[simp] theorem State.setEntry_fault (s : State) (idx : SpecIdx) (e : SpecEntry) : (s.setEntry idx e).fault = s.fault := rfl
@[simp] theorem State.setEntry_fcode (s : State) (idx : SpecIdx) (e : SpecEntry) : (s.setEntry idx e).fcode = s.fcode := rfl
@[simp] theorem State.setEntry_program (s : State) (idx : SpecIdx) (e : SpecEntry) : (s.setEntry idx e).program = s.program := rfl
@[simp] theorem State.setEntry_pc (s : State) (idx : SpecIdx) (e : SpecEntry) : (s.setEntry idx e).pc = s.pc := rfl
@[simp] theorem State.setEntry_responses (s : State) (idx : SpecIdx) (e : SpecEntry) : (s.setEntry idx e).responses = s.responses := rfl

@[simp] theorem State.setSum_spec (s : State) (v : Byte) : (s.setSum v).spec = s.spec := rfl
@[simp] theorem State.setSum_pkBuf (s : State) (v : Byte) : (s.setSum v).pkBuf = s.pkBuf := rfl
@[simp] theorem State.setSum_pkBits (s : State) (v : Byte) : (s.setSum v).pkBits = s.pkBits := rfl
@[simp] theorem State.setSum_pkDone (s : State) (v : Byte) : (s.setSum v).pkDone = s.pkDone := rfl
@[simp] theorem State.setSum_csSum (s : State) (v : Byte) : (s.setSum v).csSum = v := rfl
@[simp] theorem State.setSum_res (s : State) (v : Byte) : (s.setSum v).res = s.res := rfl
@[simp] theorem State.setSum_fault (s : State) (v : Byte) : (s.setSum v).fault = s.fault := rfl
@[simp] theorem State.setSum_fcode (s : State) (v : Byte) : (s.setSum v).fcode = s.fcode := rfl
@[simp] theorem State.setSum_program (s : State) (v : Byte) : (s.setSum v).program = s.program := rfl
@[simp] theorem State.setSum_pc (s : State) (v : Byte) : (s.setSum v).pc = s.pc := rfl
@[simp] theorem State.setSum_responses (s : State) (v : Byte) : (s.setSum v).responses = s.responses := rfl

@[simp] theorem State.setStream_spec (s : State) (buf : BitVec 256) (bits : BitVec 9) : (s.setStream buf bits).spec = s.spec := rfl
@[simp] theorem State.setStream_pkBuf (s : State) (buf : BitVec 256) (bits : BitVec 9) : (s.setStream buf bits).pkBuf = buf := rfl
@[simp] theorem State.setStream_pkBits (s : State) (buf : BitVec 256) (bits : BitVec 9) : (s.setStream buf bits).pkBits = bits := rfl
@[simp] theorem State.setStream_pkDone (s : State) (buf : BitVec 256) (bits : BitVec 9) : (s.setStream buf bits).pkDone = s.pkDone := rfl
@[simp] theorem State.setStream_csSum (s : State) (buf : BitVec 256) (bits : BitVec 9) : (s.setStream buf bits).csSum = s.csSum := rfl
@[simp] theorem State.setStream_res (s : State) (buf : BitVec 256) (bits : BitVec 9) : (s.setStream buf bits).res = s.res := rfl
@[simp] theorem State.setStream_fault (s : State) (buf : BitVec 256) (bits : BitVec 9) : (s.setStream buf bits).fault = s.fault := rfl
@[simp] theorem State.setStream_fcode (s : State) (buf : BitVec 256) (bits : BitVec 9) : (s.setStream buf bits).fcode = s.fcode := rfl
@[simp] theorem State.setStream_program (s : State) (buf : BitVec 256) (bits : BitVec 9) : (s.setStream buf bits).program = s.program := rfl
@[simp] theorem State.setStream_pc (s : State) (buf : BitVec 256) (bits : BitVec 9) : (s.setStream buf bits).pc = s.pc := rfl
@[simp] theorem State.setStream_responses (s : State) (buf : BitVec 256) (bits : BitVec 9) : (s.setStream buf bits).responses = s.responses := rfl

@[simp] theorem State.setDone_spec (s : State) (d : Bool) : (s.setDone d).spec = s.spec := rfl
@[simp] theorem State.setDone_pkBuf (s : State) (d : Bool) : (s.setDone d).pkBuf = s.pkBuf := rfl
@[simp] theorem State.setDone_pkBits (s : State) (d : Bool) : (s.setDone d).pkBits = s.pkBits := rfl
@[simp] theorem State.setDone_pkDone (s : State) (d : Bool) : (s.setDone d).pkDone = d := rfl
@[simp] theorem State.setDone_csSum (s : State) (d : Bool) : (s.setDone d).csSum = s.csSum := rfl
@[simp] theorem State.setDone_res (s : State) (d : Bool) : (s.setDone d).res = s.res := rfl
@[simp] theorem State.setDone_fault (s : State) (d : Bool) : (s.setDone d).fault = s.fault := rfl
@[simp] theorem State.setDone_fcode (s : State) (d : Bool) : (s.setDone d).fcode = s.fcode := rfl
@[simp] theorem State.setDone_program (s : State) (d : Bool) : (s.setDone d).program = s.program := rfl
@[simp] theorem State.setDone_pc (s : State) (d : Bool) : (s.setDone d).pc = s.pc := rfl
@[simp] theorem State.setDone_responses (s : State) (d : Bool) : (s.setDone d).responses = s.responses := rfl

@[simp] theorem State.resetBlock_spec (s : State) : (s.resetBlock).spec = State.reset.spec := rfl
@[simp] theorem State.resetBlock_pkBuf (s : State) : (s.resetBlock).pkBuf = State.reset.pkBuf := rfl
@[simp] theorem State.resetBlock_pkBits (s : State) : (s.resetBlock).pkBits = State.reset.pkBits := rfl
@[simp] theorem State.resetBlock_pkDone (s : State) : (s.resetBlock).pkDone = State.reset.pkDone := rfl
@[simp] theorem State.resetBlock_csSum (s : State) : (s.resetBlock).csSum = State.reset.csSum := rfl
@[simp] theorem State.resetBlock_res (s : State) : (s.resetBlock).res = State.reset.res := rfl
@[simp] theorem State.resetBlock_fault (s : State) : (s.resetBlock).fault = State.reset.fault := rfl
@[simp] theorem State.resetBlock_fcode (s : State) : (s.resetBlock).fcode = State.reset.fcode := rfl
@[simp] theorem State.resetBlock_program (s : State) : (s.resetBlock).program = s.program := rfl
@[simp] theorem State.resetBlock_pc (s : State) : (s.resetBlock).pc = s.pc := rfl
@[simp] theorem State.resetBlock_responses (s : State) : (s.resetBlock).responses = s.responses := rfl

@[simp] theorem State.advance_spec (s : State) : (s.advance).spec = s.spec := rfl
@[simp] theorem State.advance_pkBuf (s : State) : (s.advance).pkBuf = s.pkBuf := rfl
@[simp] theorem State.advance_pkBits (s : State) : (s.advance).pkBits = s.pkBits := rfl
@[simp] theorem State.advance_pkDone (s : State) : (s.advance).pkDone = s.pkDone := rfl
@[simp] theorem State.advance_csSum (s : State) : (s.advance).csSum = s.csSum := rfl
@[simp] theorem State.advance_res (s : State) : (s.advance).res = s.res := rfl
@[simp] theorem State.advance_fault (s : State) : (s.advance).fault = s.fault := rfl
@[simp] theorem State.advance_fcode (s : State) : (s.advance).fcode = s.fcode := rfl
@[simp] theorem State.advance_program (s : State) : (s.advance).program = s.program := rfl
@[simp] theorem State.advance_pc (s : State) : (s.advance).pc = s.pc + 1 := rfl
@[simp] theorem State.advance_responses (s : State) : (s.advance).responses = s.responses := rfl

@[simp] theorem State.respond_spec (s : State) : (s.respond).spec = s.spec := rfl
@[simp] theorem State.respond_pkBuf (s : State) : (s.respond).pkBuf = s.pkBuf := rfl
@[simp] theorem State.respond_pkBits (s : State) : (s.respond).pkBits = s.pkBits := rfl
@[simp] theorem State.respond_pkDone (s : State) : (s.respond).pkDone = s.pkDone := rfl
@[simp] theorem State.respond_csSum (s : State) : (s.respond).csSum = s.csSum := rfl
@[simp] theorem State.respond_res (s : State) : (s.respond).res = s.res := rfl
@[simp] theorem State.respond_fault (s : State) : (s.respond).fault = s.fault := rfl
@[simp] theorem State.respond_fcode (s : State) : (s.respond).fcode = s.fcode := rfl
@[simp] theorem State.respond_program (s : State) : (s.respond).program = s.program := rfl
@[simp] theorem State.respond_pc (s : State) : (s.respond).pc = s.pc + 1 := rfl
@[simp] theorem State.respond_responses (s : State) : (s.respond).responses = s.responses ++ [s.response] := rfl

@[simp] theorem State.placeCommand_spec (s : State) (n w : Nat) : (s.placeCommand n w).spec = s.spec := rfl
@[simp] theorem State.placeCommand_pkBuf (s : State) (n w : Nat) : (s.placeCommand n w).pkBuf = s.pkBuf := rfl
@[simp] theorem State.placeCommand_pkBits (s : State) (n w : Nat) : (s.placeCommand n w).pkBits = s.pkBits := rfl
@[simp] theorem State.placeCommand_pkDone (s : State) (n w : Nat) : (s.placeCommand n w).pkDone = s.pkDone := rfl
@[simp] theorem State.placeCommand_csSum (s : State) (n w : Nat) : (s.placeCommand n w).csSum = s.csSum := rfl
@[simp] theorem State.placeCommand_res (s : State) (n w : Nat) : (s.placeCommand n w).res = s.res := rfl
@[simp] theorem State.placeCommand_fault (s : State) (n w : Nat) : (s.placeCommand n w).fault = s.fault := rfl
@[simp] theorem State.placeCommand_fcode (s : State) (n w : Nat) : (s.placeCommand n w).fcode = s.fcode := rfl
@[simp] theorem State.placeCommand_program (s : State) (n w : Nat) : (s.placeCommand n w).program = placeAt (.command (Command.ofBits (w % 2 ^ n))) s.pc s.program := rfl
@[simp] theorem State.placeCommand_pc (s : State) (n w : Nat) : (s.placeCommand n w).pc = s.pc := rfl
@[simp] theorem State.placeCommand_responses (s : State) (n w : Nat) : (s.placeCommand n w).responses = s.responses := rfl

end Sys2Proof.Machine
end

