-- ==== Sys2Proof/Laws/Ops.lean ====
section
/-! SUPPORT. For each shared operation, one lemma that says all it can do. -/

namespace Sys2Proof.Machine

/-! ## The frame of a command -/

@[simp] theorem runCommand_faulted {s : State} (h : s.fault = true) (e : Except FaultCode State) :
    runCommand s e = .next s := by simp [runCommand, h]

@[simp] theorem runCommand_ok {s : State} (h : s.fault = false) (t : State) :
    runCommand s (.ok t) = .next t := by simp [runCommand, h]

@[simp] theorem runCommand_error {s : State} (h : s.fault = false) (c : FaultCode) :
    runCommand s (.error c) = .next (s.takeFault c) := by simp [runCommand, h]

/-- All a command can do: be ignored, take effect whole, or take the fault entry on the state it found. -/
theorem runCommand_cases {s t : State} {e : Except FaultCode State} (h : runCommand s e = .next t) :
    (s.fault = true ∧ t = s) ∨ (s.fault = false ∧ e = .ok t) ∨
      (s.fault = false ∧ ∃ c, e = .error c ∧ t = s.takeFault c) := by
  cases hf : s.fault with
  | true => simp [runCommand, hf] at h; exact .inl ⟨rfl, h.symm⟩
  | false =>
    cases e with
    | ok u => simp [runCommand, hf] at h; exact .inr (.inl ⟨rfl, by rw [h]⟩)
    | error c => simp [runCommand, hf] at h; exact .inr (.inr ⟨rfl, c, rfl, h.symm⟩)

/-- A command always answers a next state. -/
theorem runCommand_next (s : State) (e : Except FaultCode State) : ∃ t, runCommand s e = .next t := ⟨_, rfl⟩

/-- Every instruction always answers a next state: there is no stop in the block's commands (R88, R104). -/
theorem exec_next (i : Instr) (s : State) : ∃ t, exec i s = .next t := by
  cases i <;> exact ⟨_, rfl⟩

/-- Codes are numbered 1 to 9 (R87). -/
theorem FaultCode.code_range (c : FaultCode) : 1 ≤ c.code.toNat ∧ c.code.toNat ≤ 9 := by
  cases c <;> decide

/-- The block's own status does not see the host's list, its index or the responses. -/
@[simp] theorem State.status_respond (s : State) : s.respond.status = s.status := rfl

/-! ## The table -/

theorem State.entry_setEntry (s : State) (idx j : SpecIdx) (e : SpecEntry) :
    (s.setEntry idx e).entry j = if idx = j then e else s.entry j := by
  by_cases h : idx = j
  · subst h; simp [State.entry]
  · have : idx.val ≠ j.val := fun hv => h (Fin.ext hv)
    simp [State.entry, h, this]

/-! ## The quantizer -/

/-- All that `quantize` can answer (R63). -/
theorem quantize_cases (e : SpecEntry) (v : F64) :
    (e.valid = false ∧ quantize e v = .error .specUnset) ∨
    (e.valid = true ∧ f64IsNaN v = true ∧ quantize e v = .error .nanInput) ∨
    (e.valid = true ∧ f64IsNaN v = false ∧ quantize e v = .ok (f64Trunc (quantProduct e v))) := by
  cases hv : e.valid <;> cases hn : f64IsNaN v <;> simp [quantize, hv, hn]

/-! ## The stream buffer -/

/-- The hole of a field covers its own bits. -/
theorem hole_getLsbD (lo width i : Nat) (hi : i < 256) :
    (BitVec.ofNat 256 (2 ^ width - 1) <<< lo).getLsbD i = (decide (lo ≤ i) && decide (i < lo + width)) := by
  simp only [BitVec.getLsbD_shiftLeft, BitVec.getLsbD_ofNat, Nat.testBit_two_pow_sub_one]
  by_cases h1 : i < lo
  · simp [h1, hi, Nat.not_le.2 h1]
  · have h2 : lo ≤ i := Nat.not_lt.1 h1
    have h3 : i - lo < 256 := by omega
    have h4 : (i - lo < width) = (i < lo + width) := by apply propext; omega
    simp [h2, hi, h3, h4, Nat.not_lt.2 h2]

/-- Every bit of the buffer after a field is written: the field's bits inside, the old ones outside (R33). -/
theorem writeField_getLsbD (buf : BitVec 256) (lo width v i : Nat) (hi : i < 256) :
    (writeField buf lo width v).getLsbD i =
      if lo ≤ i ∧ i < lo + width then v.testBit (i - lo) else buf.getLsbD i := by
  simp only [writeField, BitVec.getLsbD_or, BitVec.getLsbD_and, BitVec.getLsbD_not, hole_getLsbD _ _ _ hi, hi,
    BitVec.getLsbD_shiftLeft, BitVec.getLsbD_ofNat, Nat.testBit_mod_two_pow]
  by_cases h1 : lo ≤ i
  · by_cases h2 : i < lo + width
    · have h3 : i - lo < 256 := by omega
      have h4 : i - lo < width := by omega
      simp [h1, h2, h3, h4, Nat.not_lt.2 h1]
    · have h4 : ¬ i - lo < width := by omega
      simp [h1, h2, h4]
  · simp [h1, Nat.not_le.1 h1]

/-- All that `Append` can answer (R71). -/
theorem appendField_cases (s : State) (width v : Nat) :
    (s.pkDone = true ∧ appendField s width v = .error .pkState) ∨
    (s.pkDone = false ∧ 2 ^ width ≤ v ∧ appendField s width v = .error .fieldRange) ∨
    (s.pkDone = false ∧ v < 2 ^ width ∧ 256 < s.pkBits.toNat + width ∧
      appendField s width v = .error .pkOverflow) ∨
    (s.pkDone = false ∧ v < 2 ^ width ∧ s.pkBits.toNat + width ≤ 256 ∧
      appendField s width v =
        .ok (s.setStream (writeField s.pkBuf (256 - s.pkBits.toNat - width) width v)
          (BitVec.ofNat 9 (s.pkBits.toNat + width)))) := by
  cases hd : s.pkDone with
  | true => simp [appendField, hd]
  | false =>
    by_cases h1 : 2 ^ width ≤ v
    · simp [appendField, hd, h1]
    · by_cases h2 : 256 < s.pkBits.toNat + width
      · simp [appendField, hd, h1, h2, Nat.lt_of_not_le h1]
      · simp [appendField, hd, h1, h2, Nat.lt_of_not_le h1, Nat.le_of_not_lt h2]

/-- The length after an append is exact: 9 bits hold it (R27). -/
theorem append_bits (b width : Nat) (h : b + width ≤ 256) : (BitVec.ofNat 9 (b + width)).toNat = b + width := by
  simp only [BitVec.toNat_ofNat]; omega

/-! ## The checksum -/

/-- The payload sum as a number (R81). -/
theorem addPayload_toNat (sum : Byte) (buf : BitVec 256) (n : Nat) :
    (addPayload sum buf n).toNat =
      (sum.toNat + ((List.range n).map fun k => (pkByte buf k).toNat).sum) % 256 := by
  induction n with
  | zero => simp only [addPayload, List.range_zero, List.foldl_nil, List.map_nil, List.sum_nil]; omega
  | succ n ih =>
    simp only [addPayload] at ih
    simp only [addPayload, List.range_succ, List.foldl_append, List.foldl_cons, List.foldl_nil, BitVec.toNat_add, ih,
      List.map_append, List.map_cons, List.map_nil, List.sum_append, List.sum_cons, List.sum_nil]
    omega

/-! ## The step -/

/-- All a step can do: one command's cycle, a reset, or the two stops past the host's list. -/
theorem step_cases (s : State) :
    (∃ c, s.nextEvent = some (.command c) ∧ step s = issue exec c s) ∨
    (s.nextEvent = some .reset ∧ step s = .next s.resetBlock.advance) ∨
    (s.nextEvent = none ∧ s.pc = s.program.length ∧ step s = .refused .endOfRun) ∨
    (s.nextEvent = none ∧ s.pc ≠ s.program.length ∧ step s = .fault .pcBeyondProgram) := by
  unfold step cycle
  cases h : s.nextEvent with
  | none => by_cases hp : s.pc = s.program.length <;> simp [hp]
  | some e => cases e <;> simp

/-- All the cycle of a command can do (R51). -/
theorem issue_cases (c : Command) (s : State) :
    (s.fault = true ∧ issue exec c s = .next s.respond) ∨
    (s.fault = false ∧ (∃ e, decode c = .error e) ∧ issue exec c s = .next (s.takeFault .illegal).respond) ∨
    (s.fault = false ∧ ∃ i t, decode c = .ok i ∧ exec i s = .next t ∧ issue exec c s = .next t.respond) := by
  cases hf : s.fault with
  | true => exact .inl ⟨rfl, by simp [issue, hf]⟩
  | false =>
    cases hd : decode c with
    | error e => exact .inr (.inl ⟨rfl, ⟨e, rfl⟩, by simp [issue, hf, hd]⟩)
    | ok i =>
      obtain ⟨t, ht⟩ := exec_next i s
      exact .inr (.inr ⟨rfl, i, t, rfl, ht, by simp [issue, hf, hd, ht, thenNext]⟩)

/-- No command reads or writes the host's list: with another list it does the same (R50). -/
theorem exec_withProgram (i : Instr) (s : State) (p : List HostEvent) :
    exec i { s with program := p } =
      match exec i s with
      | .next t => .next { t with program := p }
      | stop => stop := by
  obtain ⟨spec, buf, bits, done, sum, res, fault, fcode, prog, pc, resp⟩ := s
  cases fault with
  | true => cases i <;> rfl
  | false =>
    cases i with
    | specWr idx w mn mx => simp only [exec, execSpecWr]; cases specAdmits w mn mx <;> rfl
    | specRd idx sel => simp only [exec, execSpecRd, State.entry]; cases spec[idx].word sel <;> rfl
    | quant idx v => simp only [exec, execQuant, State.entry]; cases quantize spec[idx] v <;> rfl
    | pkApp w v => simp only [exec, execPkApp, appendField]; split_ifs <;> rfl
    | pkQapp idx v =>
      simp only [exec, execPkQapp, State.entry]
      cases done with
      | true => rfl
      | false =>
        cases quantize spec[idx] v with
        | error c => rfl
        | ok q => simp only [appendField]; split_ifs <;> rfl
    | pkFin => simp only [exec, execPkFin]; split_ifs <;> rfl
    | pkRd k =>
      cases done with
      | false => rfl
      | true =>
        simp only [exec, execPkRd]
        by_cases h : bits.toNat / 8 ≤ k.toNat <;>
          simp [runCommand, h, State.setRes, State.takeFault, State.nBytes]
    | csPk => simp only [exec, execCsPk]; split_ifs <;> rfl
    | _ => rfl

/-- The event placed at the index is the one there. -/
theorem placeAt_getElem (e : HostEvent) (n : Nat) (l : List HostEvent) : (placeAt e n l)[n]? = some e := by
  induction n generalizing l with
  | zero => cases l <;> simp [placeAt]
  | succ n ih => cases l <;> simp [placeAt, ih]

/-- A placed command is the next event. -/
theorem withFetchWord_nextEvent (s : State) (nbits w : Nat) :
    (s.withFetchWord nbits w).nextEvent = some (.command (Command.ofBits (w % 2 ^ nbits))) :=
  placeAt_getElem _ _ _

end Sys2Proof.Machine
end

