-- ==== Sys2Proof/Laws/PerInstr.lean ====
section
/-! SUPPORT. Families of lemmas with one lemma per instruction. -/

namespace Sys2Proof.Laws.EncodingShape

/-- The encoded word has its reserved bits 15:11 and 23:21 zero, and a row of the opcode map selects it (R52, R57). -/
def Statement (i : Instr) : Prop :=
  (encode i).cmd.extractLsb' 11 5 = 0 ∧ (encode i).cmd.extractLsb' 21 3 = 0 ∧
    (opcodeMap.any fun r => r.selects (encode i).cmd) = true

theorem word_idx_wm1 : ∀ (x : BitVec 3) (w : BitVec 5),
    (cFormat 0x01 x w 0).extractLsb' 11 5 = 0 ∧ (cFormat 0x01 x w 0).extractLsb' 21 3 = 0 ∧
      (opcodeMap.any fun r => r.selects (cFormat 0x01 x w 0)) = true := by decide +kernel

theorem word_idx_imm : ∀ (x : BitVec 3) (b : Byte),
    (cFormat 0x02 x 0 b).extractLsb' 11 5 = 0 ∧ (cFormat 0x02 x 0 b).extractLsb' 21 3 = 0 ∧
      (opcodeMap.any fun r => r.selects (cFormat 0x02 x 0 b)) = true := by decide +kernel

theorem word_quant : ∀ x : BitVec 3,
    (cFormat 0x03 x 0 0).extractLsb' 11 5 = 0 ∧ (cFormat 0x03 x 0 0).extractLsb' 21 3 = 0 ∧
      (opcodeMap.any fun r => r.selects (cFormat 0x03 x 0 0)) = true := by decide +kernel

theorem word_pkApp : ∀ w : BitVec 5,
    (cFormat 0x11 0 w 0).extractLsb' 11 5 = 0 ∧ (cFormat 0x11 0 w 0).extractLsb' 21 3 = 0 ∧
      (opcodeMap.any fun r => r.selects (cFormat 0x11 0 w 0)) = true := by decide +kernel

theorem word_pkQapp : ∀ x : BitVec 3,
    (cFormat 0x12 x 0 0).extractLsb' 11 5 = 0 ∧ (cFormat 0x12 x 0 0).extractLsb' 21 3 = 0 ∧
      (opcodeMap.any fun r => r.selects (cFormat 0x12 x 0 0)) = true := by decide +kernel

theorem word_pkRd : ∀ b : Byte,
    (cFormat 0x14 0 0 b).extractLsb' 11 5 = 0 ∧ (cFormat 0x14 0 0 b).extractLsb' 21 3 = 0 ∧
      (opcodeMap.any fun r => r.selects (cFormat 0x14 0 0 b)) = true := by decide +kernel

theorem word_csAdd : ∀ b : Byte,
    (cFormat 0x21 0 0 b).extractLsb' 11 5 = 0 ∧ (cFormat 0x21 0 0 b).extractLsb' 21 3 = 0 ∧
      (opcodeMap.any fun r => r.selects (cFormat 0x21 0 0 b)) = true := by decide +kernel

theorem nop : Statement .nop := by unfold Statement; decide
theorem specWr (idx : SpecIdx) (width : Nat) (mn mx : F64) : Statement (.specWr idx width mn mx) :=
  word_idx_wm1 (idxField idx) (wm1Field width)
theorem specRd (idx : SpecIdx) (sel : Byte) : Statement (.specRd idx sel) := word_idx_imm (idxField idx) sel
theorem quant (idx : SpecIdx) (v : F64) : Statement (.quant idx v) := word_quant (idxField idx)
theorem pkClr : Statement .pkClr := by unfold Statement; decide
theorem pkApp (width : Nat) (v : Word64) : Statement (.pkApp width v) := word_pkApp (wm1Field width)
theorem pkQapp (idx : SpecIdx) (v : F64) : Statement (.pkQapp idx v) := word_pkQapp (idxField idx)
theorem pkFin : Statement .pkFin := by unfold Statement; decide
theorem pkRd (k : Byte) : Statement (.pkRd k) := word_pkRd k
theorem csClr : Statement .csClr := by unfold Statement; decide
theorem csAdd (b : Byte) : Statement (.csAdd b) := word_csAdd b
theorem csPk : Statement .csPk := by unfold Statement; decide
theorem csRd : Statement .csRd := by unfold Statement; decide

end Sys2Proof.Laws.EncodingShape
end

