-- ==== Sys2Proof/Tests/Slice0.lean ====
section
/-! SUPPORT. Tests on fixed values, their expected results from spec/95_test_vectors.md and the rules' worked examples; and for
each statement with hypotheses a state and operands that meet them. -/

-- One theorem at a time: each evaluates in the kernel, and the check gives every waiting thread a stack of its own.
set_option Elab.async false

open Sys2Proof Sys2Proof.Machine

namespace Sys2Proof.Tests

/-- The state of an answer, the reset state where there is none. -/
def after (r : Result) : State :=
  match r with
  | .next t => t
  | .fault _ => State.reset
  | .refused _ => State.reset

/-- The last response of a state. -/
def lastResponse (s : State) : Option Response := s.responses.getLast?

/-- A packer with a stream of `bits` bits, the buffer given. -/
def packer (buf : BitVec 256) (bits : BitVec 9) (done : Bool) : State :=
  { State.reset with pkBuf := buf, pkBits := bits, pkDone := done }

/-- A sealed one-byte payload 0x5A (P-15). -/
def sealed5A : State := packer (0x5A#256 <<< 248) 8 true

/-- A block that has faulted with ILLEGAL. -/
def faulted : State := { State.reset with fault := true, fcode := 1 }

/-- A state whose host is about to present a command. -/
def withCommand (s : State) (cmd : Word32) (opa opb : Word64) : State :=
  { s with program := [.command ⟨cmd, opa, opb⟩], pc := 0 }

/-! ## Well-formedness: ill-formed terms are refused -/

theorem test_wf_specWr_width_0 : (Instr.specWr 0 0 0 0).wf = false := by decide
theorem test_wf_specWr_width_33 : (Instr.specWr 0 33 0 0).wf = false := by decide
theorem test_wf_pkApp_width_0 : ¬ (Instr.pkApp 0 0).WellFormed := by decide
theorem test_wf_pkApp_width_33 : ¬ (Instr.pkApp 33 0).WellFormed := by decide

/-! ## Decoding, each word bit by bit from the format of R52: IMM8 000 WM1 00000 IDX OPC -/

theorem test_decode_nop : decodeTableWord 32 0b00000000_000_00000_00000_000_00000000 = some .nop := by decide
theorem test_decode_specWr :
    decodeTableWord 32 0b00000000_000_00111_00000_101_00000001 = some (.specWr 5 8 0 0) := by decide
theorem test_decode_specRd :
    decodeTableWord 32 0b00000010_000_00000_00000_010_00000010 = some (.specRd 2 2) := by decide
theorem test_decode_quant :
    decodeTableWord 32 0b00000000_000_00000_00000_111_00000011 = some (.quant 7 0) := by decide
theorem test_decode_pkClr : decodeTableWord 32 0b00000000_000_00000_00000_000_00010000 = some .pkClr := by decide
theorem test_decode_pkApp :
    decodeTableWord 32 0b00000000_000_11111_00000_000_00010001 = some (.pkApp 32 0) := by decide
theorem test_decode_pkQapp :
    decodeTableWord 32 0b00000000_000_00000_00000_100_00010010 = some (.pkQapp 4 0) := by decide
theorem test_decode_pkFin : decodeTableWord 32 0b00000000_000_00000_00000_000_00010011 = some .pkFin := by decide
theorem test_decode_pkRd :
    decodeTableWord 32 0b00000111_000_00000_00000_000_00010100 = some (.pkRd 7) := by decide
theorem test_decode_csClr : decodeTableWord 32 0b00000000_000_00000_00000_000_00100000 = some .csClr := by decide
theorem test_decode_csAdd :
    decodeTableWord 32 0b10101010_000_00000_00000_000_00100001 = some (.csAdd 0xAA) := by decide
theorem test_decode_csPk : decodeTableWord 32 0b00000000_000_00000_00000_000_00100010 = some .csPk := by decide
theorem test_decode_csRd : decodeTableWord 32 0b00000000_000_00000_00000_000_00100011 = some .csRd := by decide

/-- E-02 to E-08: reserved opcodes, reserved bits 11 and 21, and unused fields. -/
theorem test_decode_refuses :
    [0x00000004, 0x000000FF, 0x00000100, 0x00000803, 0x01000011, 0x00200011, 0x00010012].map (decodeTableWord 32)
      = List.replicate 7 none := by decide
theorem test_decode_names :
    decode ⟨0x00000004, 0, 0⟩ = .error .unassignedOpcode ∧
    decode ⟨0x00000803, 0, 0⟩ = .error .nonzeroUnusedBits := ⟨rfl, rfl⟩
/-- Operand words of a command numbered on from bit 32 (log 11). -/
theorem test_decode_operands :
    decodeTableWord 160 (0x00070501 + 3 * 2 ^ 32 + 5 * 2 ^ 96) = some (.specWr 5 8 3 5) := by decide +kernel

/-! ## Instructions -/

/-- E-01. -/
theorem test_nop_response :
    lastResponse (after (step (State.reset.withFetchWord 32 0x00000000))) = some ⟨0, 0⟩ := by decide +kernel
/-- R68's example, S-06. -/
theorem test_specWr_entry :
    (after (exec (.specWr 5 8 0 0x3FF0000000000000) State.reset)).entry 5 = ⟨true, 8, 0, 0x3FF0000000000000⟩ := by
  decide +kernel
/-- S-13: MIN -0.0 and MAX +0.0; S-15: the ratio overflows. -/
theorem test_specWr_refuses :
    (after (exec (.specWr 6 8 0x8000000000000000 0) State.reset)).fcode = 2 ∧
    (after (exec (.specWr 6 32 0 1) State.reset)).fcode = 2 := by decide +kernel
/-- S-01, S-03. -/
theorem test_specRd :
    (after (exec (.specRd 0 0) State.reset)).res = 0x110 ∧
    (after (exec (.specRd 2 2) State.reset)).res = 0x407F400000000000 := by decide +kernel
/-- S-05. -/
theorem test_specRd_selector_3 : (after (exec (.specRd 0 3) State.reset)).status = 0x00000011 := by decide +kernel
/-- Q-03: kp at its maximum; Q-15: the least subnormal against position. -/
theorem test_quant :
    (after (exec (.quant 2 0x407F400000000000) State.reset)).res = 4094 ∧
    (after (exec (.quant 0 1) State.reset)).res = 32767 := by decide +kernel
/-- Q-27, Q-29. -/
theorem test_quant_faults :
    (after (exec (.quant 0 0xFFF0000000000001) State.reset)).status = 0x00000041 ∧
    (after (exec (.quant 5 0x7FF8000000000000) State.reset)).status = 0x00000031 := by decide +kernel
/-- P-16. -/
theorem test_pkClr : (after (exec .pkClr (packer 0 12 false))).status = 0 := by decide +kernel
/-- P-01: the 4-bit field after a 12-bit one completes the byte CD. -/
theorem test_pkApp_straddles :
    pkByte (after (exec (.pkApp 4 0xD) (packer (0xABC#256 <<< 244) 12 false))).pkBuf 1 = 0xCD := by decide +kernel
/-- P-06 and P-08. -/
theorem test_pkApp_faults :
    (after (exec (.pkApp 32 0x100000000) State.reset)).status = 0x00000051 ∧
    (after (exec (.pkApp 1 0) (packer 0 256 false))).status = 0x01000061 := by decide +kernel
/-- R74's example: position -10.0. -/
theorem test_pkQapp :
    (after (exec (.pkQapp 0 0xC024000000000000) State.reset)).res = 29336 ∧
    (after (exec (.pkQapp 0 0xC024000000000000) State.reset)).pkBits = 16 := by decide +kernel
/-- P-12: PK_STATE before NAN_INPUT. -/
theorem test_pkQapp_priority :
    (after (exec (.pkQapp 0 0x7FF8000000000000) (packer 0 64 true))).fcode = 8 := by decide +kernel
/-- P-01's PK.FIN. -/
theorem test_pkFin : (after (exec .pkFin (packer 0 16 false))).status = 0x00100100 := by decide +kernel
/-- L1-05. -/
theorem test_pkFin_misaligned : (after (exec .pkFin (packer 0 63 false))).status = 0x003F0071 := by decide +kernel
/-- P-15's payload. -/
theorem test_pkRd : (after (exec (.pkRd 0) sealed5A)).res = 0x5A := by decide +kernel
/-- P-09, P-10. -/
theorem test_pkRd_faults :
    (after (exec (.pkRd 0) State.reset)).fcode = 8 ∧
    (after (exec (.pkRd 8) (packer 0 64 true))).fcode = 9 := by decide +kernel
/-- C-04. -/
theorem test_csClr : (after (exec .csClr { State.reset with csSum := 0x10 })).csSum = 0 := by decide +kernel
/-- C-02: the sum wraps. -/
theorem test_csAdd : (after (exec (.csAdd 1) { State.reset with csSum := 0xFF })).csSum = 0 := by decide +kernel
/-- C-09: 0x80 twice. -/
theorem test_csPk : (after (exec .csPk (packer (0x8081#256 <<< 240) 16 true))).csSum = 1 := by decide +kernel
/-- C-07. -/
theorem test_csPk_unsealed : (after (exec .csPk State.reset)).status = 0x00000081 := by decide +kernel
/-- C-03. -/
theorem test_csRd : (after (exec .csRd { State.reset with csSum := 0xFF })).res = 0xFF := by decide +kernel

/-! ## The step, the numbers and the assembler -/

/-- E-09: a command with its operand word runs from reset. -/
theorem test_step_pkApp :
    lastResponse (after (step (State.reset.withFetchWord 160 (0x001F0011 + 0xFFFFFFFF * 2 ^ 32))))
      = some ⟨0x00200000, 0⟩ := by decide +kernel
/-- C-10: a reserved command faults. -/
theorem test_step_illegal :
    lastResponse (after (step (State.reset.withFetchWord 32 4))) = some ⟨0x00000011, 0⟩ := by decide +kernel
/-- The reset table's ratio of entry 0 (section 3 of the test vectors). -/
theorem test_ratio :
    specRatio 16 0xC057E00000000000 0x4057E00000000000 = 0x407571D7CA632EE9 := by decide +kernel
/-- The decimal 0.2 (L1-04). -/
theorem test_decimal : f64OfDecimal false 2 (-1) = 0x3FC999999999999A := by decide +kernel
/-- R68's and R61's examples. -/
theorem test_assemble :
    assemble "SPEC.WR 5, 8, 0.0, 1.0 ; custom\nPK.RD 7".toList
      = some [⟨0x00070501, 0, 0x3FF0000000000000⟩, ⟨0x07000014, 0, 0⟩] := by decide +kernel
theorem test_assemble_refuses : assemble "PK.APP 33, 0".toList = none := by decide +kernel

/-! ## States and operands that meet the statements' hypotheses -/

theorem witness_decodeOfEncode :
    (Instr.specWr 7 32 1 2).WellFormed ∧ (Instr.pkApp 1 3).WellFormed := by decide
theorem witness_decodedWord : decode ⟨0x001F0711, 0, 0⟩ = .error .nonzeroUnusedBits ∧
    decode ⟨0xFF000014, 1, 2⟩ = .ok (.pkRd 0xFF) := ⟨rfl, rfl⟩
theorem witness_opcodeMap :
    (0x001F0701#32 &&& 0xFFE0F8FF = 0x00000001) ∧ (0xFF000702#32 &&& 0x00FFF8FF = 0x00000002) ∧
    (0x00000703#32 &&& 0xFFFFF8FF = 0x00000003) ∧ (0x001F0011#32 &&& 0xFFE0FFFF = 0x00000011) ∧
    (0x00000712#32 &&& 0xFFFFF8FF = 0x00000012) ∧ (0xFF000014#32 &&& 0x00FFFFFF = 0x00000014) ∧
    (0xFF000021#32 &&& 0x00FFFFFF = 0x00000021) ∧ (0x00000000#32 &&& 0xFFFFFFFF = 0x00000000) ∧
    (0x00000010#32 &&& 0xFFFFFFFF = 0x00000010) ∧ (0x00000013#32 &&& 0xFFFFFFFF = 0x00000013) ∧
    (0x00000020#32 &&& 0xFFFFFFFF = 0x00000020) ∧ (0x00000022#32 &&& 0xFFFFFFFF = 0x00000022) ∧
    (0x00000023#32 &&& 0xFFFFFFFF = 0x00000023) := by decide
theorem witness_reserved_opcode :
    (withCommand State.reset 0x24 0 0).nextEvent = some (.command ⟨0x24, 0, 0⟩) ∧
    (withCommand State.reset 0x24 0 0).fault = false ∧
    0x24 ≤ (⟨0x24, 0, 0⟩ : Command).opc.toNat ∧ (⟨0x04, 0, 0⟩ : Command).opc.toNat = 0x04 ∧
    (⟨0x15, 0, 0⟩ : Command).opc.toNat = 0x15 ∧ (⟨0x1F, 0, 0⟩ : Command).opc.toNat = 0x1F ∧
    (⟨0x0F, 0, 0⟩ : Command).opc.toNat = 0x0F := by decide +kernel
theorem witness_reserved_bits :
    (withCommand State.reset 0x00000803 0 0).nextEvent = some (.command ⟨0x00000803, 0, 0⟩) ∧
    (withCommand State.reset 0x00000803 0 0).fault = false ∧
    ∃ r ∈ opcodeMap, r.pattern.extractLsb' 0 8 = (⟨0x00000803, 0, 0⟩ : Command).opc ∧
      (0x00000803#32) &&& r.mask &&& 0xFFFFFF00 ≠ 0 :=
  ⟨by decide +kernel, rfl, ⟨0xFFFFF8FF, 0x00000003, fun c => .quant c.idx c.opa⟩,
    List.mem_of_getElem? (i := 3) rfl, by decide, by decide⟩
theorem witness_reserved_selector :
    (withCommand State.reset 0x03000002 0 0).nextEvent = some (.command ⟨0x03000002, 0, 0⟩) ∧
    (withCommand State.reset 0x03000002 0 0).fault = false ∧
    (0x03000002#32 &&& 0x00FFF8FF = 0x00000002) ∧ 3 ≤ (⟨0x03000002, 0, 0⟩ : Command).imm8.toNat := by decide +kernel
theorem witness_operandWords :
    (0x00000003#32).extractLsb' 0 8 ≠ 0x01 ∧ (0x00000010#32).extractLsb' 0 8 ≠ 0x01 ∧
    (0x00000010#32).extractLsb' 0 8 ≠ 0x03 ∧ (0x00000010#32).extractLsb' 0 8 ≠ 0x11 ∧
    (0x00000010#32).extractLsb' 0 8 ≠ 0x12 := by decide
/-- CS.PK with other operand words, and QUANT with another OPB only. -/
theorem witness_operandWords_step :
    withCommand sealed5A 0x22 3 4 = { withCommand sealed5A 0x22 1 2 with program := (withCommand sealed5A 0x22 3 4).program } ∧
    (withCommand sealed5A 0x22 1 2).nextEvent = some (.command ⟨0x22, 1, 2⟩) ∧
    (withCommand sealed5A 0x22 3 4).nextEvent = some (.command ⟨0x22, 3, 4⟩) ∧
    (0x22#32).extractLsb' 0 8 ∉ ([0x01, 0x03, 0x11, 0x12] : List Byte) ∧ (0x22#32).extractLsb' 0 8 ≠ 0x01 ∧
    withCommand sealed5A 0x03 1 4 = { withCommand sealed5A 0x03 1 2 with program := (withCommand sealed5A 0x03 1 4).program } ∧
    (withCommand sealed5A 0x03 1 2).nextEvent = some (.command ⟨0x03, 1, 2⟩) ∧
    (withCommand sealed5A 0x03 1 4).nextEvent = some (.command ⟨0x03, 1, 4⟩) ∧ (0x03#32).extractLsb' 0 8 ≠ 0x01 :=
  ⟨rfl, rfl, rfl, by decide, by decide, rfl, rfl, rfl, by decide⟩
theorem witness_operandWords_read :
    decode ⟨0x01, 7, 9⟩ = .ok (.specWr 0 1 7 9) ∧ decode ⟨0x03, 7, 9⟩ = .ok (.quant 0 7) ∧
    decode ⟨0x11, 7, 9⟩ = .ok (.pkApp 1 7) ∧ decode ⟨0x12, 7, 9⟩ = .ok (.pkQapp 0 7) := ⟨rfl, rfl, rfl, rfl⟩
theorem witness_stepRuns :
    (withCommand State.reset 0x23 0 0).nextEvent = some (.command ⟨0x23, 0, 0⟩) ∧
    decode ⟨0x23, 0, 0⟩ = .ok .csRd := ⟨rfl, rfl⟩
theorem witness_ignored :
    (withCommand faulted 0x04 0 0).fault = true ∧
    (withCommand faulted 0x04 0 0).nextEvent = some (.command ⟨0x04, 0, 0⟩) := by decide +kernel
theorem witness_onlyReset :
    (withCommand faulted 0 0 0).fault = true ∧ (∃ t, step (withCommand faulted 0 0 0) = .next t) ∧
    (withCommand faulted 0 0 0).nextEvent ≠ some .reset := ⟨rfl, ⟨_, rfl⟩, by decide +kernel⟩
theorem witness_oneResponse :
    (withCommand State.reset 0x04 0 0).nextEvent = some (.command ⟨0x04, 0, 0⟩) := rfl
theorem witness_resetEvent :
    ({ faulted with program := [.reset] } : State).nextEvent = some .reset := rfl
theorem witness_endOfList :
    (withCommand State.reset 0 0 0).pc < (withCommand State.reset 0 0 0).program.length ∧
    State.reset.pc = State.reset.program.length := by decide +kernel
theorem witness_stepKeepsInv :
    (withCommand State.reset 0x00070501 0 0x3FF0000000000000).Inv ∧
    ∃ t, step (withCommand State.reset 0x00070501 0 0x3FF0000000000000) = .next t :=
  ⟨by decide +kernel, _, rfl⟩
theorem witness_nop_step :
    (withCommand State.reset 0x00000100 0 0).nextEvent = some (.command ⟨0x00000100, 0, 0⟩) ∧
    (withCommand State.reset 0x00000100 0 0).fault = false ∧ (⟨0x00000100, 0, 0⟩ : Command).opc = 0x00 ∧
    (⟨0x00000100, 0, 0⟩ : Command).cmd ≠ 0x00000000 := ⟨rfl, rfl, by decide, by decide⟩
theorem witness_nop_error : (⟨0x00000100, 0, 0⟩ : Command).opc = 0x00 ∧ (0x00000100#32) ≠ 0 := by decide
theorem witness_specWr :
    State.reset.fault = false ∧ WidthOk 1 ∧ WidthOk 32 ∧ f64IsFinite 0xBFF0000000000000 = true ∧
    f64IsFinite 0x3FF0000000000000 = true ∧ f64Lt 0xBFF0000000000000 0x3FF0000000000000 = true ∧
    f64IsFinite (f64Sub 0x3FF0000000000000 0xBFF0000000000000) = true ∧
    f64IsFinite (f64Div (f64OfNat (2 ^ 32 - 1)) (f64Sub 0x3FF0000000000000 0xBFF0000000000000)) = true := by
  decide +kernel
/-- One operand pair for each refusal: S-09, S-10, S-13, S-14, S-15. -/
theorem witness_specWr_refused :
    State.reset.fault = false ∧ WidthOk 32 ∧ f64IsFinite 0x7FF8000000000000 = false ∧ f64IsFinite 0x7FF0000000000000 = false ∧
    f64Lt 0x8000000000000000 0x0000000000000000 = false ∧
    f64IsFinite (f64Sub 0x7FE1CCF385EBC8A0 0xFFE1CCF385EBC8A0) = false ∧
    f64IsFinite (f64Div (f64OfNat (2 ^ 32 - 1)) (f64Sub 1 0)) = false := by decide +kernel
theorem witness_specRd : State.reset.fault = false ∧ 3 ≤ (3 : Byte).toNat := by decide
theorem witness_quant_unset :
    State.reset.fault = false ∧ (State.reset.entry 5).Ok ∧ (State.reset.entry 5).valid = false := by decide +kernel
theorem witness_quant_nan :
    State.reset.fault = false ∧ (State.reset.entry 0).Ok ∧ (State.reset.entry 0).valid = true ∧ f64IsNaN 0x7FF8000000000000 = true := by
  decide +kernel
theorem witness_quant :
    State.reset.fault = false ∧ (State.reset.entry 4).Ok ∧ (State.reset.entry 4).valid = true ∧ f64IsNaN 0x7FF0000000000000 = false := by
  decide +kernel
theorem witness_live : State.reset.fault = false := rfl
theorem witness_pkApp_sealed : sealed5A.fault = false ∧ WidthOk 8 ∧ sealed5A.pkDone = true := by decide +kernel
theorem witness_pkApp_range :
    State.reset.fault = false ∧ WidthOk 32 ∧ State.reset.pkDone = false ∧ 2 ^ 32 ≤ (0x100000000#64).toNat := by
  decide +kernel
theorem witness_pkApp_overflow :
    (packer 0 256 false).fault = false ∧ WidthOk 1 ∧ (packer 0 256 false).pkDone = false ∧ (0#64).toNat < 2 ^ 1 ∧
    256 < (packer 0 256 false).pkBits.toNat + 1 := by decide +kernel
theorem witness_pkApp :
    (packer 0 224 false).fault = false ∧ (packer 0 224 false).pkDone = false ∧ WidthOk 32 ∧
    (0xFFFFFFFF#64).toNat < 2 ^ 32 ∧ (packer 0 224 false).pkBits.toNat + 32 ≤ 256 := by decide +kernel
theorem witness_pkQapp_sealed :
    sealed5A.fault = false ∧ (sealed5A.entry 0).Ok ∧ sealed5A.pkDone = true := by decide +kernel
theorem witness_pkQapp_unset :
    State.reset.fault = false ∧ State.reset.pkDone = false ∧ (State.reset.entry 7).Ok ∧ (State.reset.entry 7).valid = false := by decide +kernel
theorem witness_pkQapp_nan :
    State.reset.fault = false ∧ State.reset.pkDone = false ∧ (State.reset.entry 1).Ok ∧ (State.reset.entry 1).valid = true ∧
    f64IsNaN 0xFFF0000000000001 = true := by decide +kernel
theorem witness_pkQapp_overflow :
    (packer 0 241 false).fault = false ∧ (packer 0 241 false).pkDone = false ∧ ((packer 0 241 false).entry 0).Ok ∧
    ((packer 0 241 false).entry 0).valid = true ∧ f64IsNaN 0 = false ∧
    256 < (packer 0 241 false).pkBits.toNat + ((packer 0 241 false).entry 0).width.toNat := by decide +kernel
theorem witness_pkQapp :
    (packer 0 240 false).fault = false ∧ (packer 0 240 false).pkDone = false ∧ ((packer 0 240 false).entry 0).Ok ∧
    ((packer 0 240 false).entry 0).valid = true ∧ f64IsNaN 0xFFF0000000000000 = false ∧
    (packer 0 240 false).pkBits.toNat + ((packer 0 240 false).entry 0).width.toNat ≤ 256 := by decide +kernel
theorem witness_pkFin_misaligned : (packer 0 63 false).fault = false ∧ (packer 0 63 false).pkBits.toNat % 8 ≠ 0 := by
  decide +kernel
theorem witness_pkFin : State.reset.fault = false ∧ State.reset.pkBits.toNat % 8 = 0 := by decide +kernel
theorem witness_pkRd_unsealed :
    State.reset.fault = false ∧ State.reset.pkBits.toNat ≤ 256 ∧ State.reset.pkDone = false := by decide +kernel
theorem witness_pkRd_index :
    sealed5A.fault = false ∧ sealed5A.pkBits.toNat ≤ 256 ∧ sealed5A.pkDone = true ∧ sealed5A.pkBits.toNat / 8 ≤ (1#8).toNat := by decide +kernel
theorem witness_pkRd :
    (packer 0 256 true).fault = false ∧ (packer 0 256 true).pkBits.toNat ≤ 256 ∧ (packer 0 256 true).pkDone = true ∧
    (31#8).toNat < (packer 0 256 true).pkBits.toNat / 8 := by decide +kernel
theorem witness_csPk :
    State.reset.fault = false ∧ State.reset.pkDone = false ∧ sealed5A.fault = false ∧ sealed5A.pkDone = true := by
  decide +kernel
theorem witness_faulting :
    State.reset.fault = false ∧ State.reset.TableOk ∧
    ∃ t, exec (.pkRd 0) State.reset = .next t ∧ t.fault = true := ⟨rfl, by decide +kernel, _, rfl, rfl⟩
theorem witness_writtenOnly : ∃ t, exec (.csAdd 1) State.reset = .next t ∧ t.csSum = 1 := ⟨_, rfl, by decide +kernel⟩
theorem witness_readCommands :
    ∃ t, exec (.specRd 0 1) State.reset = .next t ∧ t.fault = false ∧ t.res ≠ State.reset.res :=
  ⟨_, rfl, by decide +kernel, by decide +kernel⟩
theorem witness_deadBits :
    (withCommand (packer 0 8 true) 0x22 0 0).SameButDeadBits (withCommand (packer 1 8 true) 0x22 0 0) ∧
    ∃ t, step (withCommand (packer 0 8 true) 0x22 0 0) = .next t := ⟨by decide +kernel, _, rfl⟩
theorem witness_quantize :
    (State.reset.entry 2).Ok ∧ (State.reset.entry 2).valid = true ∧ f64IsNaN 0x7FF0000000000000 = false ∧
    f64Lt 0xFFF0000000000000 (State.reset.entry 2).min = true ∧
    f64Gt 0x7FF0000000000000 (State.reset.entry 2).max = true ∧
    f64Lt 0x8000000000000000 (State.reset.entry 2).min = false ∧
    f64Gt 0x8000000000000000 (State.reset.entry 2).max = false ∧ (State.reset.entry 2).min = 0 := by decide +kernel
theorem witness_monotonic :
    (State.reset.entry 2).Ok ∧ f64IsNaN 0x8000000000000000 = false ∧ f64IsNaN 0x407F400000000000 = false ∧
    f64Lt 0x407F400000000000 0x8000000000000000 = false ∧
    (match quantize (State.reset.entry 2) 0x8000000000000000 with | .ok q => q == 0 | .error _ => false) = true ∧
    (match quantize (State.reset.entry 2) 0x407F400000000000 with | .ok q => q == 4094 | .error _ => false) = true := by
  decide +kernel
/-- Both cases of the top code occur: kp is one below, position is on it. -/
theorem witness_max :
    (State.reset.entry 0).Ok ∧ (State.reset.entry 2).Ok ∧
    f64Lt (f64Mul (f64Sub 0x407F400000000000 0) (f64Div (f64OfNat 4095) (f64Sub 0x407F400000000000 0)))
      (f64OfNat 4095) = true ∧
    f64Lt (f64Mul (f64Sub 0x4057E00000000000 0xC057E00000000000)
      (f64Div (f64OfNat 65535) (f64Sub 0x4057E00000000000 0xC057E00000000000))) (f64OfNat 65535) = false := by
  decide +kernel
theorem witness_rounding : 0 < 1 ∧ f64RoundMag (2 ^ 53 + 1) 1 < 2047 * 2 ^ 52 ∧ 2 ^ 53 < 2047 * 2 ^ 52 := by
  decide +kernel
theorem witness_exactIntegers :
    2 ^ 53 - 1 < 2 ^ 53 ∧ f64IsFinite 0x8000000000000000 = true ∧ 0 ≤ f64Val 0x8000000000000000 := by decide +kernel
theorem witness_pkByte : 31 < 32 ∧ 7 < 8 := by decide
theorem witness_payload :
    (packer 0 224 false).fault = false ∧ WidthOk 32 ∧
    (∃ t, exec (.pkApp 32 5) (packer 0 224 false) = .next t ∧ t.fault = false) ∧
    (packer 0 256 true).pkBits.toNat ≤ 256 ∧ 8 * 31 + 8 ≤ (packer 0 256 true).pkBits.toNat :=
  ⟨rfl, by decide, ⟨_, rfl, by decide +kernel⟩, by decide +kernel, by decide +kernel⟩
/-- A field list of 64 bits, and one of 63 bits (L1-05), both with values that fit. -/
theorem witness_fieldList :
    (∀ f ∈ [(16, 0x7298#64), (12, 0x7FF#64), (12, 0x010#64), (12, 0x0A3#64), (12, 0x7FF#64)],
      WidthOk f.1 ∧ f.2.toNat < 2 ^ f.1) ∧
    ([16, 12, 12, 12, 12].sum ≤ 256 ∧ [16, 12, 12, 12, 12].sum % 8 = 0) ∧
    (∀ f ∈ [(16, 0#64), (12, 0#64), (12, 0#64), (12, 0#64), (11, 0#64)], WidthOk f.1 ∧ f.2.toNat < 2 ^ f.1) ∧
    [16, 12, 12, 12, 11].sum % 8 ≠ 0 := by decide +kernel
theorem witness_build :
    State.reset.fault = false ∧ State.reset.spec = State.reset.spec ∧ (∀ v ∈ [(0 : F64), 0, 0, 0, 0], f64IsNaN v = false) ∧
    f64IsNaN 0xC024000000000000 = false ∧ f64IsNaN 0x7FF0000000000000 = false :=
  ⟨rfl, rfl, by intro v hv; simp only [List.mem_cons, List.not_mem_nil, or_false, or_self] at hv; subst hv; decide +kernel,
    by decide +kernel, by decide +kernel⟩
theorem witness_csPkAsAdds : sealed5A.pkDone = true := rfl
theorem witness_checksum :
    sealed5A.fault = false ∧ (none ∈ [some 0xFF, none, some (0x01 : Byte)] → sealed5A.pkDone = true) ∧
    [some 0xFF, none, some (0x01 : Byte)].Perm [none, some 0x01, some 0xFF] := ⟨rfl, fun _ => rfl, by decide⟩
theorem witness_csFrame :
    sealed5A.fault = false ∧ sealed5A.pkDone = true ∧ State.reset.fault = false ∧ State.reset.pkDone = false :=
  ⟨rfl, rfl, rfl, rfl⟩
theorem witness_assembled :
    assemble "CS.FRAME 1, 1".toList = some ((csFrame 1 1).map encode) ∧ (csFrame 1 1).length = 9 ∧
    assembleLine "CS.FRAME 1, 1".toList = some (csFrame 1 1) := by decide +kernel
theorem witness_assembled_lines :
    ["PK.FIN".toList, "CS.PK ; payload".toList] ≠ [] ∧
    (∀ line ∈ ["PK.FIN".toList, "CS.PK ; payload".toList], '\n' ∉ line) ∧
    assemble (List.intercalate ['\n'] ["PK.FIN".toList, "CS.PK ; payload".toList]) = some [⟨0x13, 0, 0⟩, ⟨0x22, 0, 0⟩] := by
  decide +kernel
/-- Operands at the ends of their ranges, and one beyond. -/
theorem witness_operandTexts :
    OperandText ['0'] ∧ OperandText ['7'] ∧ OperandText ['3', '2'] ∧ OperandText ['3', '3'] ∧
    OperandText ['2', '5', '5'] ∧ OperandText ['-', '1', '.', '5'] := by simp [OperandText, isBlank]
theorem witness_forms_refused :
    assembleLine "SPEC.RD 8, 0".toList = none ∧ assembleLine "PK.APP 0, 1".toList = none ∧
    assembleLine "PK.APP 33, 1".toList = none ∧ assembleLine "CS.ADD 256".toList = none ∧
    assembleLine "NOP 1".toList = none := by decide +kernel
theorem witness_forms :
    assembleLine (formLine "PK.RD".toList [['2', '5', '5']]) = some [.pkRd 255] ∧
    assembleLine (formLine "CS.ADD".toList [['0']]) = some [.csAdd 0] ∧
    assembleLine (formLine "SPEC.RD".toList [['7'], ['2']]) = some [.specRd 7 2] ∧
    assembleLine (formLine "PK.APP".toList [['3', '2'], ['0']]) = some [.pkApp 32 0] := by decide +kernel
/-- -1.5 is 0xBFF8000000000000. -/
theorem witness_forms_real :
    assembleLine (formLine "QUANT".toList [['7'], ['-', '1', '.', '5']]) = some [.quant 7 0xBFF8000000000000] ∧
    assembleLine (formLine "PK.QAPP".toList [['0'], ['-', '1', '.', '5']]) = some [.pkQapp 0 0xBFF8000000000000] ∧
    assembleLine (formLine "SPEC.WR".toList [['7'], ['3', '2'], ['-', '1', '.', '5'], ['0']])
      = some [.specWr 7 32 0xBFF8000000000000 0] := by decide +kernel
theorem witness_comment : ';' ∉ "CS.PK".toList ∧ assembleLine "CS.PK".toList = some [.csPk] := by decide +kernel
theorem witness_pseudo :
    assembleLine (formLine "PK.BUILD".toList [['0'], ['0'], ['0'], ['0'], ['0']]) = some (pkBuild 0 0 0 0 0) ∧
    assembleLine (formLine "CS.BYTES".toList [['7'], ['2', '5', '5']]) = some [.csAdd 7, .csAdd 255] ∧
    assembleLine (formLine "CS.FRAME".toList [['0'], ['2', '5', '5']]) = some (csFrame 0 255) := by decide +kernel
theorem witness_literals :
    9 < 10 ^ 1 ∧ 255 < 16 ^ 2 ∧ digitText 16 2 255 = ['f', 'f'] ∧ digitText 10 3 5 = ['0', '0', '5'] ∧ 5 < 10 ^ 3 := by
  decide +kernel

end Sys2Proof.Tests
end

section
/-! The rounding of R14 is to nearest, ties to even. A magnitude of at least 2^(52+k) is a multiple of 2^k, so the candidates
at or above the leading power of num/den are the grid on which `roundHalfEven` chooses, and those below it are farther from
num/den than that power is. -/

namespace Sys2Proof.Machine

/-! ## Rounding to an integer -/

/-- The error of the rounding is at most half a unit, and half a unit only where the result is even. -/
theorem roundHalfEven_error (num den : Nat) (h : 0 < den) :
    2 * |(roundHalfEven num den : Int) * den - num| ≤ den ∧
      (2 * |(roundHalfEven num den : Int) * den - num| = den → roundHalfEven num den % 2 = 0) := by
  have hr := Nat.mod_lt num h
  have hdiv : (num : Int) = (num / den : Nat) * den + (num % den : Nat) := by
    exact_mod_cast (Nat.div_add_mod' num den).symm
  have hdown : |((num / den : Nat) : Int) * den - num| = (num % den : Nat) := by
    rw [abs_sub_comm, abs_of_nonneg] <;> omega
  have hup : |((num / den + 1 : Nat) : Int) * den - num| = den - (num % den : Nat) := by
    rw [Nat.cast_add, Nat.cast_one, Int.add_mul, Int.one_mul, abs_of_nonneg] <;> omega
  unfold roundHalfEven
  split_ifs with hgt heq
  · rw [hup]; omega
  · rcases Nat.mod_two_eq_zero_or_one (num / den) with hq | hq
    · rw [hq, Nat.add_zero, hdown]; omega
    · rw [hq, hup]; omega
  · rw [hdown]; omega

/-- No integer is nearer to num/den than the rounded one, and one as near is another only where the rounded one is even. -/
theorem roundHalfEven_nearest (num den n : Nat) (h : 0 < den) :
    |(roundHalfEven num den : Int) * den - num| ≤ |(n : Int) * den - num| ∧
      (|(roundHalfEven num den : Int) * den - num| = |(n : Int) * den - num| →
        n = roundHalfEven num den ∨ roundHalfEven num den % 2 = 0) := by
  obtain ⟨herr, heven⟩ := roundHalfEven_error num den h
  generalize roundHalfEven num den = s at herr heven ⊢
  rcases eq_or_ne n s with rfl | hne
  · exact ⟨le_rfl, fun _ => .inl rfl⟩
  · have hgap : (den : Int) ≤ |(n : Int) * den - s * den| := by
      rw [← Int.sub_mul, abs_mul, Nat.abs_cast]
      exact le_mul_of_one_le_left (Int.natCast_nonneg den) (Int.one_le_abs (by omega))
    have htri := abs_sub_le ((n : Int) * den) num (s * den)
    rw [abs_sub_comm (num : Int)] at htri
    exact ⟨by omega, fun heq => .inr (heven (by omega))⟩

/-- A quotient below n + 1/2 does not round above n. -/
theorem roundHalfEven_le_of_lt_midpoint {num den n : Nat} (h : 2 * num < (2 * n + 1) * den) :
    roundHalfEven num den ≤ n := by
  have hd : 0 < den := Nat.pos_of_ne_zero fun h0 => by simp [h0] at h
  by_contra hlt
  have herr := (roundHalfEven_error num den hd).1
  have hn : ((n : Int) + 1) * den ≤ (roundHalfEven num den : Int) * den :=
    Int.mul_le_mul_of_nonneg_right (by omega) (Int.natCast_nonneg den)
  have hle := le_abs_self ((roundHalfEven num den : Int) * den - num)
  have h' : 2 * (num : Int) < (2 * n + 1) * den := by exact_mod_cast h
  linarith

/-- A quotient below 2^53 - 1/2 keeps its 53 bits: the significand does not carry out. -/
theorem roundHalfEven_le_of_lt_top_midpoint {num den k : Nat} (h : num < (2 ^ 54 - 1) * 2 ^ k * den) :
    roundHalfEven num (den * 2 ^ (k + 1)) ≤ 2 ^ 53 - 1 :=
  roundHalfEven_le_of_lt_midpoint <|
    calc 2 * num < 2 * ((2 ^ 54 - 1) * 2 ^ k * den) := Nat.mul_lt_mul_of_pos_left h Nat.two_pos
      _ = (2 * (2 ^ 53 - 1) + 1) * (den * 2 ^ (k + 1)) := by ring

/-! ## The grid of magnitudes -/

/-- A magnitude of at least 2^(52+k) has at most 53 significant bits, so its low k bits are 0. -/
theorem two_pow_dvd_f64Mag {a : F64} {k : Nat} (h : 2 ^ (52 + k) ≤ f64Mag a) : 2 ^ k ∣ f64Mag a := by
  have hfrac : f64Frac a < 2 ^ 52 := by rw [f64Frac_eq]; exact Nat.mod_lt _ (Nat.two_pow_pos _)
  unfold f64Mag at h ⊢
  split_ifs at h ⊢ with hexp
  · have hpow : 2 ^ 52 ≤ 2 ^ (52 + k) := Nat.pow_le_pow_right (by omega) (by omega)
    omega
  · refine Dvd.dvd.mul_left (Nat.pow_dvd_pow 2 ?_) _
    have hlt : 2 ^ (52 + k) < 2 ^ (53 + (f64Exp a - 1)) := by
      rw [Nat.pow_add 2 53]
      exact h.trans_lt (Nat.mul_lt_mul_of_pos_right (by omega) (Nat.two_pow_pos _))
    have := (Nat.pow_lt_pow_iff_right (by omega)).1 hlt
    omega

/-- Two finite patterns of one magnitude have the same bits 62:0. -/
theorem f64Mag_pack_inj {neg : Bool} {m n : Nat} (hm : m < 2047 * 2 ^ 52) (hn : n < 2047 * 2 ^ 52)
    (h : f64Mag (f64Pack neg m) = f64Mag (f64Pack neg n)) : m = n := by
  rw [← f64RoundMag_exact neg m 1 Nat.one_pos hm, h, f64RoundMag_exact neg n 1 Nat.one_pos hn]

/-- The magnitude of a finite pattern from k dropped bits and a significand s, which may carry out to 2^53. -/
theorem f64Mag_pack_scaled (neg : Bool) {k s : Nat} (hlow : 0 < k → 2 ^ 52 ≤ s) (hhigh : s ≤ 2 ^ 53)
    (hfin : k * 2 ^ 52 + s < 2047 * 2 ^ 52) : f64Mag (f64Pack neg (k * 2 ^ 52 + s)) = s * 2 ^ k := by
  rcases hhigh.lt_or_eq with hlt | rfl
  · rcases Nat.eq_zero_or_pos k with rfl | hk
    · rw [Nat.zero_mul, Nat.zero_add, f64Mag_pack_small neg s hlt, Nat.pow_zero, Nat.mul_one]
    · exact f64Mag_pack_normal neg k s (by omega) (hlow hk) hlt
  · rw [show k * 2 ^ 52 + 2 ^ 53 = (k + 1) * 2 ^ 52 + 2 ^ 52 by ring,
      f64Mag_pack_normal neg (k + 1) (2 ^ 52) (by omega) le_rfl (by omega)]
    ring

/-! ## Rounding to a magnitude -/

/-- Where low bits are dropped the exact value is at least 2^(52+k). -/
theorem f64Shift_leading_le {num den : Nat} (hk : 0 < f64Shift num den) :
    2 ^ 52 * (den * 2 ^ f64Shift num den) ≤ num := by
  have hq : num / den ≠ 0 := fun h0 => by simp [f64Shift, h0] at hk
  have hlog : 52 + f64Shift num den = Nat.log2 (num / den) := by unfold f64Shift at hk ⊢; omega
  calc 2 ^ 52 * (den * 2 ^ f64Shift num den) = 2 ^ Nat.log2 (num / den) * den := by rw [← hlog]; ring
    _ ≤ num / den * den := Nat.mul_le_mul_right _ (Nat.log2_self_le hq)
    _ ≤ num := Nat.div_mul_le_self num den

theorem f64RoundMag_le (num den : Nat) :
    f64RoundMag num den ≤ f64Shift num den * 2 ^ 52 + roundHalfEven num (den * 2 ^ f64Shift num den) :=
  min_le_left _ _

theorem f64RoundMag_le_inf (num den : Nat) : f64RoundMag num den ≤ 2047 * 2 ^ 52 :=
  min_le_right _ _

/-- A finite result is its k dropped bits and the rounded significand. -/
theorem f64RoundMag_of_finite {num den : Nat} (hfin : f64RoundMag num den < 2047 * 2 ^ 52) :
    f64RoundMag num den =
      f64Shift num den * 2 ^ 52 + roundHalfEven num (den * 2 ^ f64Shift num den) := by
  simp only [f64RoundMag] at hfin ⊢
  omega

/-- The magnitude of a finite result is the rounded significand, scaled by the dropped bits. -/
theorem f64Mag_f64RoundMag (neg : Bool) {num den : Nat} (h : 0 < den) (hfin : f64RoundMag num den < 2047 * 2 ^ 52) :
    f64Mag (f64Pack neg (f64RoundMag num den)) =
      roundHalfEven num (den * 2 ^ f64Shift num den) * 2 ^ f64Shift num den := by
  have hround := f64RoundMag_of_finite hfin
  rw [hround] at hfin ⊢
  exact f64Mag_pack_scaled neg (le_round_significand num den) (round_significand_le num den h) hfin

/-- The magnitude of any pattern is no nearer to num/den than some multiple of 2^k, and strictly farther than it where the
pattern is off that grid. -/
theorem f64Mag_grid_or_farther (a : F64) (num : Nat) {den : Nat} (h : 0 < den) :
    (∃ n, f64Mag a = n * 2 ^ f64Shift num den) ∨
      ∃ n : Nat, |(n : Int) * (den * 2 ^ f64Shift num den : Nat) - num| < |(f64Mag a : Int) * den - num| := by
  rcases Nat.lt_or_ge (f64Mag a) (2 ^ (52 + f64Shift num den)) with hlt | hge
  · rcases Nat.eq_zero_or_pos (f64Shift num den) with hk | hk
    · exact .inl ⟨f64Mag a, by rw [hk, Nat.pow_zero, Nat.mul_one]⟩
    · refine .inr ⟨2 ^ 52, ?_⟩
      have hlead := f64Shift_leading_le hk
      have hbelow : f64Mag a * den < 2 ^ 52 * (den * 2 ^ f64Shift num den) :=
        calc f64Mag a * den < 2 ^ (52 + f64Shift num den) * den := Nat.mul_lt_mul_of_pos_right hlt h
          _ = 2 ^ 52 * (den * 2 ^ f64Shift num den) := by ring
      rw [← Nat.cast_mul, ← Nat.cast_mul, abs_sub_comm, abs_sub_comm (_ : Int) (num : Int),
        abs_of_nonneg (by omega), abs_of_nonneg (by omega)]
      omega
  · obtain ⟨n, hn⟩ := two_pow_dvd_f64Mag hge
    exact .inl ⟨n, by rw [hn, Nat.mul_comm]⟩

/-- No pattern's magnitude is nearer to num/den than a finite result of the rounding, and one as near is another only where
the result is even. -/
theorem f64RoundMag_nearest {num den : Nat} (h : 0 < den) (hfin : f64RoundMag num den < 2047 * 2 ^ 52) (a : F64) :
    |(f64Mag (f64Pack false (f64RoundMag num den)) : Int) * den - num| ≤ |(f64Mag a : Int) * den - num| ∧
      (|(f64Mag (f64Pack false (f64RoundMag num den)) : Int) * den - num| = |(f64Mag a : Int) * den - num| →
        f64Mag a = f64Mag (f64Pack false (f64RoundMag num den)) ∨ f64RoundMag num den % 2 = 0) := by
  have hD : 0 < den * 2 ^ f64Shift num den := Nat.mul_pos h (Nat.two_pow_pos _)
  have hscale (n : Nat) : ((n * 2 ^ f64Shift num den : Nat) : Int) * den = n * (den * 2 ^ f64Shift num den : Nat) := by
    push_cast; ring
  have hround := f64RoundMag_of_finite hfin
  rw [f64Mag_f64RoundMag false h hfin, hscale]
  rcases f64Mag_grid_or_farther a num h with ⟨n, hn⟩ | ⟨n, hn⟩
  · obtain ⟨hle, htie⟩ := roundHalfEven_nearest num (den * 2 ^ f64Shift num den) n hD
    rw [hn, hscale]
    exact ⟨hle, fun heq => (htie heq).imp (fun hns => by rw [hns]) fun heven => by omega⟩
  · have hlt := (roundHalfEven_nearest num (den * 2 ^ f64Shift num den) n hD).1.trans_lt hn
    exact ⟨hlt.le, fun heq => absurd heq hlt.ne⟩

/-- The rounding answers infinity exactly from the midpoint above the largest finite magnitude on. -/
theorem f64RoundMag_eq_inf_iff {num den : Nat} (h : 0 < den) :
    f64RoundMag num den = 2047 * 2 ^ 52 ↔ (2 ^ 54 - 1) * 2 ^ 2044 * den ≤ num := by
  have hmidShift : f64Shift ((2 ^ 54 - 1) * 2 ^ 2044) 1 = 2045 := by decide +kernel
  have hmidRound : f64RoundMag ((2 ^ 54 - 1) * 2 ^ 2044) 1 = 2047 * 2 ^ 52 := by decide +kernel
  constructor
  · refine fun hinf => not_lt.1 fun hlt => ?_
    have hk : f64Shift num den ≤ 2045 :=
      hmidShift ▸ f64Shift_mono h Nat.one_pos (by rw [Nat.mul_one]; exact hlt.le)
    have hs := round_significand_le num den h
    have hpattern : 2047 * 2 ^ 52 ≤ f64Shift num den * 2 ^ 52 + roundHalfEven num (den * 2 ^ f64Shift num den) :=
      hinf.ge.trans (f64RoundMag_le num den)
    have htop : f64Shift num den = 2044 + 1 := by omega
    have hbelow := roundHalfEven_le_of_lt_top_midpoint hlt
    rw [htop] at hpattern
    omega
  · intro hle
    have hmono : f64RoundMag ((2 ^ 54 - 1) * 2 ^ 2044) 1 ≤ f64RoundMag num den :=
      f64RoundMag_mono Nat.one_pos h (by rw [Nat.mul_one]; exact hle)
    exact Nat.le_antisymm (f64RoundMag_le_inf num den) (hmidRound ▸ hmono)

/-- Settles O42: the overflow threshold is `f64RoundMag_eq_inf_iff`, and nearness among the finite magnitudes is
`f64RoundMag_nearest`. -/
theorem roundingIsToNearestTiesToEven : Obligations.RoundingIsToNearestTiesToEven := by
  intro num den h
  refine ⟨f64RoundMag_eq_inf_iff h, fun hfin m hm => ?_⟩
  obtain ⟨hle, htie⟩ := f64RoundMag_nearest h hfin (f64Pack false m)
  exact ⟨hle, fun heq => (htie heq).imp_left (f64Mag_pack_inj hm hfin)⟩

end Sys2Proof.Machine
end

section
/-! Integers below 2^53 are binary64 numbers, and `trunc` is the floor of a finite value that is not negative (R14). -/

namespace Sys2Proof.Machine

/-- A pattern of sign 0 has its magnitude as value. -/
@[simp] theorem f64Val_pack_false (m : Nat) : f64Val (f64Pack false m) = f64Mag (f64Pack false m) := by
  simp [f64Val]

/-- A value that is not negative is the magnitude: of the patterns of sign 1 only -0.0 has one. -/
theorem f64Val_eq_f64Mag {a : F64} (h : 0 ≤ f64Val a) : f64Val a = f64Mag a := by
  unfold f64Val at h ⊢
  split_ifs at h ⊢ <;> omega

theorem f64Trunc_eq {p : F64} (hfin : f64IsFinite p = true) (h : 0 ≤ f64Val p) : f64Trunc p = f64Mag p / 2 ^ 1074 := by
  rw [f64Trunc, hfin, decide_eq_true h, Bool.and_self, if_pos rfl]

/-- The value of an integer below 2^53 is a finite magnitude, normalised by its leading bit. -/
theorem exists_f64Mag_eq_nat {n : Nat} (hn : n < 2 ^ 53) :
    ∃ m < 2047 * 2 ^ 52, f64Mag (f64Pack false m) = n * 2 ^ 1074 := by
  rcases Nat.eq_zero_or_pos n with rfl | hpos
  · exact ⟨0, by omega, by rw [f64Mag_pack_small false 0 (by omega), Nat.zero_mul]⟩
  · have hlog : n.log2 < 53 := (Nat.log2_lt hpos.ne').2 hn
    have hlow : 2 ^ 52 ≤ n * 2 ^ (52 - n.log2) :=
      calc 2 ^ 52 = 2 ^ n.log2 * 2 ^ (52 - n.log2) := by rw [← Nat.pow_add]; congr 1; omega
        _ ≤ n * 2 ^ (52 - n.log2) := Nat.mul_le_mul_right _ (Nat.log2_self_le hpos.ne')
    have hhigh : n * 2 ^ (52 - n.log2) < 2 ^ 53 :=
      calc n * 2 ^ (52 - n.log2) < 2 ^ (n.log2 + 1) * 2 ^ (52 - n.log2) :=
            Nat.mul_lt_mul_of_pos_right Nat.lt_log2_self (Nat.two_pow_pos _)
        _ = 2 ^ 53 := by rw [← Nat.pow_add]; congr 1; omega
    refine ⟨(1022 + n.log2) * 2 ^ 52 + n * 2 ^ (52 - n.log2), by omega, ?_⟩
    rw [f64Mag_pack_normal false _ _ (by omega) hlow hhigh, Nat.mul_assoc, ← Nat.pow_add]
    congr 2
    omega

/-- `f64_of_nat` is exact below 2^53. -/
theorem f64OfNat_exact {n : Nat} (hn : n < 2 ^ 53) :
    f64IsFinite (f64OfNat n) = true ∧ f64Val (f64OfNat n) = (n : Int) * 2 ^ 1074 := by
  obtain ⟨m, hm, hmag⟩ := exists_f64Mag_eq_nat hn
  have hround : f64RoundMag (n * 2 ^ 1074) 1 = m := by
    rw [← hmag, ← Nat.mul_one (f64Mag _), f64RoundMag_exact false m 1 Nat.one_pos hm]
  rw [f64OfNat, hround, f64Val_pack_false, hmag]
  exact ⟨f64IsFinite_pack false m hm, by rw [Nat.cast_mul, Nat.cast_pow, Nat.cast_ofNat]⟩

/-- `trunc` is the floor: it is at most p, and p is less than one above it. -/
theorem f64Trunc_floor {p : F64} (hfin : f64IsFinite p = true) (h : 0 ≤ f64Val p) :
    (f64Trunc p : Int) * 2 ^ 1074 ≤ f64Val p ∧ f64Val p < ((f64Trunc p : Int) + 1) * 2 ^ 1074 := by
  rw [f64Trunc_eq hfin h, f64Val_eq_f64Mag h]
  have hle : f64Mag p / 2 ^ 1074 * 2 ^ 1074 ≤ f64Mag p := Nat.div_mul_le_self _ _
  have hunit : 0 < 2 ^ 1074 := by positivity
  have hlt : f64Mag p < (f64Mag p / 2 ^ 1074 + 1) * 2 ^ 1074 := Nat.lt_mul_of_div_lt (Nat.lt_succ_self _) hunit
  exact ⟨by exact_mod_cast hle, by exact_mod_cast hlt⟩

/-- `trunc` reads back the integer whose value a finite pattern has. -/
theorem f64Trunc_of_val {p : F64} {n : Nat} (hfin : f64IsFinite p = true) (h : f64Val p = (n : Int) * 2 ^ 1074) :
    f64Trunc p = n := by
  have hunit : (0 : Int) < 2 ^ 1074 := by positivity
  obtain ⟨hle, hlt⟩ := f64Trunc_floor hfin (h ▸ Int.mul_nonneg (Int.natCast_nonneg n) hunit.le)
  rw [h] at hle hlt
  have hle' := le_of_mul_le_mul_right hle hunit
  have hlt' := lt_of_mul_lt_mul_right hlt hunit.le
  omega

/-- Settles O43: `f64OfNat_exact`, `f64Trunc_of_val` and `f64Trunc_floor`. -/
theorem integersBelow2To53AreExact : Obligations.IntegersBelow2To53AreExact := by
  refine ⟨fun n hn => ?_, fun p => f64Trunc_floor⟩
  obtain ⟨hfin, hval⟩ := f64OfNat_exact hn
  exact ⟨hfin, hval, f64Trunc_of_val hfin hval⟩

end Sys2Proof.Machine
end

section
/-! What a command can do, said once (R13, R22, R88 to R90): the effect of each instruction on an unfaulted block, and the
state elements it writes. The frame of every instruction follows (R16, R19). -/

namespace Sys2Proof.Machine

/-! ## The effect of an instruction -/

/-- What an unfaulted block does with an instruction: its writes, or the fault it raises. -/
def effect (i : Instr) (s : State) : Except FaultCode State :=
  match i with
  | .nop => .ok s
  | .specWr idx width mn mx =>
    if specAdmits width mn mx then .ok (s.setEntry idx ⟨true, BitVec.ofNat 6 width, mn, mx⟩) else .error .specBad
  | .specRd idx sel =>
    match (s.entry idx).word sel with
    | some w => .ok (s.setRes w)
    | none => .error .illegal
  | .quant idx v => (quantize (s.entry idx) v).map fun q => s.setRes (zextNat q)
  | .pkClr => .ok ((s.setStream s.pkBuf 0).setDone false)
  | .pkApp width v => appendField s width v.toNat
  | .pkQapp idx v =>
    if s.pkDone then .error .pkState
    else (quantize (s.entry idx) v).bind fun q =>
      (appendField s (s.entry idx).width.toNat q).map fun t => t.setRes (zextNat q)
  | .pkFin =>
    if s.pkBits.toNat % 8 = 0 then .ok ((s.setDone true).setRes (zextNat s.nBytes)) else .error .pkAlign
  | .pkRd k =>
    if !s.pkDone then .error .pkState
    else if s.nBytes ≤ k.toNat then .error .pkIndex
    else .ok (s.setRes (zextByte (pkByte s.pkBuf k.toNat)))
  | .csClr => .ok (s.setSum 0)
  | .csAdd b => .ok (s.setSum (s.csSum + b))
  | .csPk => if !s.pkDone then .error .pkState else .ok (s.setSum (addPayload s.csSum s.pkBuf s.nBytes))
  | .csRd => .ok (s.setRes (zextByte s.csSum))

/-- `effect` is what the model's meaning of each instruction hands to the frame of a command. -/
theorem exec_eq_runCommand (i : Instr) (s : State) : exec i s = runCommand s (effect i s) := by
  cases i with
  | specRd idx sel =>
    cases h : (s.entry idx).word sel <;> simp only [exec, execSpecRd, effect, h]
  | quant idx v =>
    simp only [exec, execQuant, effect]
    cases quantize (s.entry idx) v <;> rfl
  | pkQapp idx v =>
    simp only [exec, execPkQapp, effect]
    cases quantize (s.entry idx) v with
    | error c => rfl
    | ok q =>
      simp only [Except.bind]
      cases appendField s (s.entry idx).width.toNat q <;> rfl
  | pkFin => simp only [exec, execPkFin, effect, ne_eq, ite_not]
  | _ => rfl

/-- What each instruction writes where it raises no fault, with the bounds it keeps on PK.BITS (R16, R71, R75). -/
inductive Writes : Instr → State → State → Prop
  | nop {s} : Writes .nop s s
  | specWr {idx width mn mx s} : specAdmits width mn mx = true →
      Writes (.specWr idx width mn mx) s (s.setEntry idx ⟨true, BitVec.ofNat 6 width, mn, mx⟩)
  | specRd {idx sel s} (v) : Writes (.specRd idx sel) s (s.setRes v)
  | quant {idx x s} (v) : Writes (.quant idx x) s (s.setRes v)
  | pkClr {s} : Writes .pkClr s ((s.setStream s.pkBuf 0).setDone false)
  | pkApp {width x s} (buf) (bits) : s.pkDone = false → bits.toNat ≤ 256 →
      Writes (.pkApp width x) s (s.setStream buf bits)
  | pkQapp {idx x s} (buf) (bits) (v) : s.pkDone = false → bits.toNat ≤ 256 →
      Writes (.pkQapp idx x) s ((s.setStream buf bits).setRes v)
  | pkFin {s} (v) : s.pkBits.toNat % 8 = 0 → Writes .pkFin s ((s.setDone true).setRes v)
  | pkRd {k s} (v) : Writes (.pkRd k) s (s.setRes v)
  | csClr {s} : Writes .csClr s (s.setSum 0)
  | csAdd {b s} : Writes (.csAdd b) s (s.setSum (s.csSum + b))
  | csPk {s} (v) : Writes .csPk s (s.setSum v)
  | csRd {s} (v) : Writes .csRd s (s.setRes v)

/-- An append that raises no fault finds the stream open and leaves it within the buffer (R71, R27). -/
theorem appendField_ok {s t : State} {width v : Nat} (h : appendField s width v = .ok t) :
    s.pkDone = false ∧ ∃ buf bits, bits.toNat ≤ 256 ∧ t = s.setStream buf bits := by
  rcases appendField_cases s width v with ⟨_, he⟩ | ⟨_, _, he⟩ | ⟨_, _, _, he⟩ | ⟨hopen, _, hfit, he⟩
  case inr.inr.inr =>
    rw [he, Except.ok.injEq] at h
    exact ⟨hopen, _, _, (append_bits _ _ hfit).trans_le hfit, h.symm⟩
  all_goals simp [he] at h

/-- An effect without a fault writes what `Writes` lists for its instruction. -/
theorem effect_writes {i : Instr} {s t : State} (h : effect i s = .ok t) : Writes i s t := by
  cases i with
  | specWr idx width mn mx =>
    simp only [effect] at h
    split at h
    · cases h; exact .specWr ‹_›
    · cases h
  | specRd idx sel =>
    simp only [effect] at h
    split at h
    · cases h; exact .specRd _
    · cases h
  | quant idx x =>
    simp only [effect] at h
    cases hq : quantize (s.entry idx) x with
    | error c => rw [hq] at h; cases h
    | ok q => rw [hq] at h; cases h; exact .quant _
  | pkApp width x =>
    obtain ⟨hopen, buf, bits, hbits, rfl⟩ := appendField_ok h
    exact .pkApp buf bits hopen hbits
  | pkQapp idx x =>
    simp only [effect] at h
    split at h
    · cases h
    cases hq : quantize (s.entry idx) x with
    | error c => rw [hq] at h; cases h
    | ok q =>
      cases ha : appendField s (s.entry idx).width.toNat q with
      | error c => simp [hq, ha, Except.bind, Except.map] at h
      | ok u =>
        obtain ⟨hopen, buf, bits, hbits, rfl⟩ := appendField_ok ha
        simp only [hq, ha, Except.bind, Except.map, Except.ok.injEq] at h
        exact h ▸ .pkQapp buf bits _ hopen hbits
  | pkFin =>
    simp only [effect] at h
    split at h
    · cases h; exact .pkFin _ ‹_›
    · cases h
  | pkRd k =>
    simp only [effect] at h
    split_ifs at h
    cases h
    exact .pkRd _
  | csPk =>
    simp only [effect] at h
    split_ifs at h
    cases h
    exact .csPk _
  | nop => cases h; exact .nop
  | pkClr => cases h; exact .pkClr
  | csClr => cases h; exact .csClr
  | csAdd b => cases h; exact .csAdd
  | csRd => cases h; exact .csRd _

/-- All an instruction can do: be ignored, write its own elements, or take the fault entry on the state it found. -/
theorem exec_cases {i : Instr} {s t : State} (h : exec i s = .next t) :
    (s.fault = true ∧ t = s) ∨ (s.fault = false ∧ Writes i s t) ∨ (s.fault = false ∧ ∃ c, t = s.takeFault c) := by
  rw [exec_eq_runCommand] at h
  rcases runCommand_cases h with hfault | ⟨hlive, he⟩ | ⟨hlive, c, _, rfl⟩
  · exact .inl hfault
  · exact .inr (.inl ⟨hlive, effect_writes he⟩)
  · exact .inr (.inr ⟨hlive, c, rfl⟩)

/-! ## The frame of an instruction -/

/-- No instruction writes the fault fields other than by a fault, nor the host's side of the port. -/
theorem Writes.frame {i : Instr} {s t : State} (h : Writes i s t) :
    t.fault = s.fault ∧ t.fcode = s.fcode ∧ t.program = s.program ∧ t.pc = s.pc ∧ t.responses = s.responses := by
  cases h <;> exact ⟨rfl, rfl, rfl, rfl, rfl⟩

/-- Settles O33, by the elements that each instruction writes. -/
theorem elementsAreWrittenOnlyByTheirCommands : Obligations.ElementsAreWrittenOnlyByTheirCommands := by
  intro i s t h
  rcases exec_cases h with ⟨_, rfl⟩ | ⟨hlive, hw⟩ | ⟨_, c, rfl⟩
  · simp
  · cases hw <;> simp [hlive]
  · simp

end Sys2Proof.Machine
end

section
/-! What one event of the host's list can do (R18, R51, R98), and what every step keeps: the sticky fault (R21, R22, R93) and
the invariant of the block (R24, R25, R27, R50). -/

namespace Sys2Proof.Machine

/-! ## One event of the host's list -/

theorem step_command {s : State} {c : Command} (h : s.nextEvent = some (.command c)) : step s = issue exec c s := by
  simp [step, cycle, h]

theorem step_reset {s : State} (h : s.nextEvent = some .reset) : step s = .next s.resetBlock.advance := by
  simp [step, cycle, h]

theorem step_endOfRun {s : State} (h : s.nextEvent = none) (hpc : s.pc = s.program.length) :
    step s = .refused .endOfRun := by
  simp [step, cycle, h, hpc]

/-- WM1 + 1 is a width (R54). -/
theorem widthOk_width (c : Command) : WidthOk c.width := by
  have := (c.cmd.extractLsb' 16 5).isLt
  simp only [WidthOk, Command.width, Config.wMax]
  omega

/-- A width that the decoder reads is one that WM1 encodes (R54). -/
theorem decode_wellFormed {c : Command} {i : Instr} (h : decode c = .ok i) : i.WellFormed := by
  have hrow : ∀ r ∈ opcodeMap, (r.build c).WellFormed := by
    simpa [opcodeMap, Instr.WellFormed] using widthOk_width c
  unfold decode at h
  split at h
  case h_1 r hfind =>
    cases h
    exact hrow r (List.mem_of_find?_eq_some hfind)
  case h_2 => split at h <;> cases h

/-- What one command can do to the block before its response (R51, R90): nothing on a faulted block, else the fault entry or
the writes of an instruction that has an encoding. -/
inductive Performs : State → State → Prop
  | ignored {s} : s.fault = true → Performs s s
  | faults {s} (c) : s.fault = false → Performs s (s.takeFault c)
  | writes {i s u} : s.fault = false → i.WellFormed → Writes i s u → Performs s u

/-- The cycle of a command answers the response of a state that `Performs` allows. -/
theorem issue_performs (c : Command) (s : State) : ∃ u, Performs s u ∧ issue exec c s = .next u.respond := by
  rcases issue_cases c s with ⟨hfault, he⟩ | ⟨hlive, _, he⟩ | ⟨hlive, i, u, hdec, hexec, he⟩
  · exact ⟨_, .ignored hfault, he⟩
  · exact ⟨_, .faults .illegal hlive, he⟩
  · refine ⟨u, ?_, he⟩
    rcases exec_cases hexec with ⟨hfault, rfl⟩ | ⟨_, hw⟩ | ⟨_, c, rfl⟩
    · exact .ignored hfault
    · exact .writes hlive (decode_wellFormed hdec) hw
    · exact .faults c hlive

/-- A step that answers a next state performed one command and returned its response, or reset the block. -/
theorem step_next_cases {s t : State} (h : step s = .next t) :
    (∃ c u, s.nextEvent = some (.command c) ∧ Performs s u ∧ t = u.respond) ∨
      (s.nextEvent = some .reset ∧ t = s.resetBlock.advance) := by
  rcases step_cases s with ⟨c, hev, he⟩ | ⟨hev, he⟩ | ⟨_, _, he⟩ | ⟨_, _, he⟩ <;> rw [he] at h
  · obtain ⟨u, hu, hissue⟩ := issue_performs c s
    cases hissue.symm.trans h
    exact .inl ⟨c, u, hev, hu, rfl⟩
  · cases h
    exact .inr ⟨hev, rfl⟩
  all_goals cases h

/-- Settles O10: on a faulted block a command is ignored. -/
theorem onlyResetClearsTheFault : Obligations.OnlyResetClearsTheFault := by
  intro s t hfault h hev
  rcases step_next_cases h with ⟨_, u, _, hu, rfl⟩ | ⟨hreset, _⟩
  · cases hu with
    | ignored => exact ⟨hfault, rfl⟩
    | faults _ hlive | writes hlive => simp [hfault] at hlive
  · exact absurd hreset hev

/-- Settles O14: the next event decides what the step does. -/
theorem stepStopsExactlyAtTheEndOfTheList : Obligations.StepStopsExactlyAtTheEndOfTheList := by
  intro s
  have hend : s.nextEvent = none ↔ s.program.length ≤ s.pc := List.getElem?_eq_none_iff
  refine ⟨fun hlt => ?_, fun hpc => step_endOfRun (hend.2 hpc.ge) hpc⟩
  cases hev : s.nextEvent with
  | none => exact absurd (hend.1 hev) (Nat.not_le.2 hlt)
  | some e =>
    cases e with
    | reset => exact ⟨_, step_reset hev⟩
    | command c =>
      obtain ⟨u, _, hissue⟩ := issue_performs c s
      exact ⟨_, (step_command hev).trans hissue⟩

/-! ## The invariant -/

/-- The device table meets R25. -/
theorem reset_tableOk : State.reset.TableOk := by decide +kernel

/-- Settles O15: no stream, no fault and no event yet. -/
theorem resetMeetsTheInvariant : Obligations.ResetMeetsTheInvariant :=
  ⟨reset_tableOk, by decide, by decide, by decide⟩

/-- SPEC.WR leaves a table that meets R25: the check admits the bounds, and 6 bits hold the width (R68). -/
theorem tableOk_setEntry {s : State} {idx : SpecIdx} {width : Nat} {mn mx : F64} (h : s.TableOk) (hw : WidthOk width)
    (hadmits : specAdmits width mn mx = true) : (s.setEntry idx ⟨true, BitVec.ofNat 6 width, mn, mx⟩).TableOk := by
  have hwidth : (BitVec.ofNat 6 width).toNat = width := by
    obtain ⟨_, hmax⟩ := hw
    simp only [Config.wMax] at hmax
    simp only [BitVec.toNat_ofNat]; omega
  intro j
  rw [State.entry_setEntry]
  split
  · exact ⟨fun _ => by rw [hwidth]; exact ⟨hw, hadmits⟩, nofun⟩
  · exact h j

/-- SPEC.WR alone writes the table (R16, R25). -/
theorem Writes.tableOk {i : Instr} {s t : State} (hi : i.WellFormed) (hw : Writes i s t) (h : s.TableOk) : t.TableOk := by
  cases hw with
  | specWr hadmits => exact tableOk_setEntry h hi hadmits
  | _ => exact h

/-- Appends stay within the buffer, and only PK.FIN of an aligned stream seals it (R27). -/
theorem Writes.packerOk {i : Instr} {s t : State} (hw : Writes i s t) (h : s.PackerOk) : t.PackerOk := by
  cases hw with
  | pkClr => simp [State.PackerOk]
  | pkApp buf bits hopen hbits => exact ⟨hbits, by simp [hopen]⟩
  | pkQapp buf bits v hopen hbits => exact ⟨hbits, by simp [hopen]⟩
  | pkFin v haligned =>
    obtain ⟨hlen, _⟩ := h
    exact ⟨hlen, fun _ => haligned⟩
  | _ => exact h

/-- A command keeps the parts of the invariant that speak of the block, and leaves the host's side alone. -/
theorem Performs.keeps {s u : State} (hp : Performs s u) (htable : s.TableOk) (hpacker : s.PackerOk) (hfault : s.FaultOk) :
    u.TableOk ∧ u.PackerOk ∧ u.FaultOk ∧ u.program = s.program ∧ u.pc = s.pc ∧ u.responses = s.responses := by
  cases hp with
  | ignored => exact ⟨htable, hpacker, hfault, rfl, rfl, rfl⟩
  | faults c => exact ⟨htable, hpacker, ⟨nofun, fun _ => c.code_range⟩, rfl, rfl, rfl⟩
  | writes _ hi hw =>
    obtain ⟨hf, hfc, hhost⟩ := hw.frame
    exact ⟨hw.tableOk hi htable, hw.packerOk hpacker, by rwa [State.FaultOk, hf, hfc], hhost⟩

/-- One more event performed is one more response where it is a command. -/
theorem countP_take_succ_of_nextEvent {s : State} {e : HostEvent} (h : s.nextEvent = some e) :
    s.pc + 1 ≤ s.program.length ∧
      (s.program.take (s.pc + 1)).countP HostEvent.isCommand =
        (s.program.take s.pc).countP HostEvent.isCommand + e.isCommand.toNat := by
  obtain ⟨hlt, _⟩ := List.getElem?_eq_some_iff.1 h
  rw [List.take_add_one, show s.program[s.pc]? = some e from h]
  refine ⟨hlt, ?_⟩
  cases he : e.isCommand <;> simp [he]

/-- Settles O16: a command keeps the invariant by `Performs.keeps`, a reset by `resetMeetsTheInvariant`. -/
theorem stepKeepsTheInvariant : Obligations.StepKeepsTheInvariant := by
  rintro s t ⟨htable, hpacker, hfault, hpc, hcount⟩ h
  rcases step_next_cases h with ⟨c, u, hev, hu, rfl⟩ | ⟨hev, rfl⟩
  all_goals obtain ⟨hpc', hcount'⟩ := countP_take_succ_of_nextEvent hev
  · obtain ⟨htable', hpacker', hfault', hprog, hpcu, hresp⟩ := hu.keeps htable hpacker hfault
    refine ⟨htable', hpacker', hfault', ?_, ?_⟩
    · simpa [hprog, hpcu] using hpc'
    · simpa [hprog, hpcu, hresp, hcount', HostEvent.isCommand] using hcount
  · obtain ⟨rtable, rpacker, rfault, _⟩ := resetMeetsTheInvariant
    exact ⟨rtable, rpacker, rfault, hpc', hcount.trans hcount'.symm⟩

end Sys2Proof.Machine
end

section
/-! The values after reset (R26) and the layout of STATUS (R20). -/

namespace Sys2Proof.Machine

/-- Settles O12: the values that `State.reset` and its table are written with. -/
theorem resetStateHoldsTheStatedValues : Obligations.ResetStateHoldsTheStatedValues :=
  ⟨rfl, rfl, rfl, rfl, rfl, by decide, rfl, rfl, rfl, rfl, rfl, rfl, by decide⟩

/-- Appended fields as a number: the left one above the right one. -/
theorem toNat_append_eq_add {m n : Nat} (x : BitVec m) (y : BitVec n) : (x ++ y).toNat = x.toNat * 2 ^ n + y.toNat := by
  rw [BitVec.toNat_append, ← Nat.shiftLeft_eq, Nat.shiftLeft_add_eq_or_of_lt y.isLt]

/-- A bit of a word as a digit of its number. -/
theorem getLsbD_eq_iff {n : Nat} (x : BitVec n) (k : Nat) (b : Bool) : x.getLsbD k = b ↔ x.toNat / 2 ^ k % 2 = b.toNat := by
  rw [← Nat.toNat_testBit, BitVec.testBit_toNat]
  cases b <;> simp

/-- STATUS as a number, each field at its position (R20). -/
theorem State.status_toNat (s : State) :
    s.status.toNat = s.pkBits.toNat * 2 ^ 16 + s.pkDone.toNat * 2 ^ 8 + s.fcode.toNat * 2 ^ 4 + s.fault.toNat := by
  have := s.pkBits.isLt
  have := s.fcode.isLt
  have := s.pkDone.toNat_lt
  have := s.fault.toNat_lt
  simp only [State.status, BitVec.toNat_setWidth, toNat_append_eq_add, BitVec.toNat_ofBool, BitVec.toNat_ofNat]
  omega

/-- Settles O17: the fields of `status_toNat` do not overlap. -/
theorem statusHoldsItsFields : Obligations.StatusHoldsItsFields := by
  intro s
  have hn := s.status_toNat
  have := s.pkBits.isLt
  have := s.fcode.isLt
  have := s.pkDone.toNat_lt
  have := s.fault.toNat_lt
  simp only [getLsbD_eq_iff, ← BitVec.toNat_inj, BitVec.extractLsb'_toNat, Nat.shiftRight_eq_div_pow, hn,
    BitVec.ofNat_eq_ofNat, BitVec.toNat_ofNat]
  omega

end Sys2Proof.Machine
end

section
/-! The bits of PK.BUF beyond the stream are unobservable (R28). Two states that differ in them only are `s` and
`{ s with pkBuf := b }` with `SameStream s b`; every command carries such a pair to another. -/

namespace Sys2Proof.Machine

/-- The buffer b holds the stream that s holds. -/
def SameStream (s : State) (b : BitVec 256) : Prop :=
  ∀ j, j < s.pkBits.toNat → b.getLsbD (255 - j) = s.pkBuf.getLsbD (255 - j)

/-- The one form in which the proofs below use the relation. -/
theorem sameButDeadBits_iff {s t : State} :
    s.SameButDeadBits t ↔ ∃ b, SameStream s b ∧ t = { s with pkBuf := b } := by
  constructor
  · rintro ⟨ht, hbits⟩
    exact ⟨t.pkBuf, hbits, ht⟩
  · rintro ⟨b, hb, rfl⟩
    exact ⟨rfl, hb⟩

/-- A byte that lies whole in the stream reads the same, and one past the buffer's end is not read from it (R34). -/
theorem SameStream.pkByte_eq {s : State} {b : BitVec 256} (h : SameStream s b) {k : Nat} (hk : k < s.nBytes) :
    pkByte b k = pkByte s.pkBuf k := by
  unfold pkByte
  split
  case isTrue hin =>
    ext i hi
    have hbit := h (255 - (248 - 8 * k + i)) (by simp only [State.nBytes] at hk; omega)
    rw [show 255 - (255 - (248 - 8 * k + i)) = 248 - 8 * k + i by omega] at hbit
    simpa [hi, BitVec.getLsbD_extractLsb'] using hbit
  case isFalse => rfl

/-- The payload sum reads the stream only (R81). -/
theorem SameStream.addPayload_eq {s : State} {b : BitVec 256} (h : SameStream s b) (sum : Byte) :
    addPayload sum b s.nBytes = addPayload sum s.pkBuf s.nBytes :=
  List.foldl_ext _ _ _ fun acc k hk => by rw [h.pkByte_eq (List.mem_range.1 hk)]

/-- The same field appended to the same stream leaves the same stream (R33, R71). -/
theorem SameStream.append {s : State} {b : BitVec 256} (h : SameStream s b) {width v : Nat}
    (hfit : s.pkBits.toNat + width ≤ 256) :
    SameStream
      (s.setStream (writeField s.pkBuf (256 - s.pkBits.toNat - width) width v) (BitVec.ofNat 9 (s.pkBits.toNat + width)))
      (writeField b (256 - s.pkBits.toNat - width) width v) := by
  intro j hj
  simp only [State.setStream_pkBits, append_bits _ _ hfit] at hj
  simp only [State.setStream_pkBuf, writeField_getLsbD _ _ _ _ (255 - j) (by omega)]
  split
  · rfl
  · exact h j (by omega)

/-- Effects on states that differ in dead bits only agree: the same fault, or states that differ in dead bits only. -/
inductive EffectsAgree : Except FaultCode State → Except FaultCode State → Prop
  | error (c) : EffectsAgree (.error c) (.error c)
  | ok {s t} : s.SameButDeadBits t → EffectsAgree (.ok s) (.ok t)

/-- An update that keeps the stream buffer and its length, or empties the stream, agrees with itself. -/
theorem SameStream.ok_agree {s u : State} {b : BitVec 256} (h : SameStream s b) (hbuf : u.pkBuf = s.pkBuf)
    (hbits : u.pkBits.toNat ≤ s.pkBits.toNat) : EffectsAgree (.ok u) (.ok { u with pkBuf := b }) :=
  .ok (sameButDeadBits_iff.2 ⟨b, fun j hj => by rw [hbuf]; exact h j (by omega), rfl⟩)

/-- `Append` checks the length and the operands only, and writes the same field (R71). -/
theorem appendField_agree {s : State} {b : BitVec 256} (h : SameStream s b) (width v : Nat) :
    EffectsAgree (appendField s width v) (appendField { s with pkBuf := b } width v) := by
  simp only [appendField]
  split_ifs with hdone hrange hfit
  · exact .error _
  · exact .error _
  · exact .error _
  · exact .ok (sameButDeadBits_iff.2 ⟨_, h.append (Nat.le_of_not_lt hfit), rfl⟩)

/-- RES taking the same code keeps the agreement (R74). -/
theorem EffectsAgree.map_setRes {e e' : Except FaultCode State} (h : EffectsAgree e e') (v : Word64) :
    EffectsAgree (e.map (·.setRes v)) (e'.map (·.setRes v)) := by
  cases h with
  | error c => exact .error c
  | ok h =>
    obtain ⟨b, hb, rfl⟩ := sameButDeadBits_iff.1 h
    exact .ok (sameButDeadBits_iff.2 ⟨b, hb, rfl⟩)

/-- No instruction's effect depends on the dead bits. -/
theorem effect_agree (i : Instr) {s : State} {b : BitVec 256} (h : SameStream s b) :
    EffectsAgree (effect i s) (effect i { s with pkBuf := b }) := by
  cases i with
  | specWr idx width mn mx =>
    simp only [effect]
    split
    · exact h.ok_agree rfl le_rfl
    · exact .error _
  | specRd idx sel =>
    simp only [effect, State.entry]
    cases s.spec[idx].word sel with
    | some w => exact h.ok_agree rfl le_rfl
    | none => exact .error _
  | quant idx x =>
    simp only [effect, State.entry]
    cases quantize s.spec[idx] x with
    | ok q => exact h.ok_agree rfl le_rfl
    | error c => exact .error c
  | pkApp width x => exact appendField_agree h width x.toNat
  | pkQapp idx x =>
    simp only [effect, State.entry]
    split
    · exact .error _
    cases quantize s.spec[idx] x with
    | ok q => exact (appendField_agree h _ q).map_setRes _
    | error c => exact .error c
  | pkFin =>
    simp only [effect]
    split
    · exact h.ok_agree rfl le_rfl
    · exact .error _
  | pkRd k =>
    have hbytes : ({ s with pkBuf := b } : State).nBytes = s.nBytes := rfl
    simp only [effect, hbytes]
    split
    · exact .error _
    split
    · exact .error _
    case isFalse hk =>
      rw [h.pkByte_eq (Nat.lt_of_not_le hk)]
      exact h.ok_agree rfl le_rfl
  | csPk =>
    simp only [effect]
    split
    · exact .error _
    · rw [← h.addPayload_eq s.csSum]
      exact h.ok_agree rfl le_rfl
  | pkClr => exact h.ok_agree rfl (Nat.zero_le _)
  | nop | csClr | csAdd | csRd => exact h.ok_agree rfl le_rfl

/-- The fault entry does not touch the buffer (R89). -/
theorem sameButDeadBits_takeFault {s t : State} (h : s.SameButDeadBits t) (c : FaultCode) :
    (s.takeFault c).SameButDeadBits (t.takeFault c) := by
  obtain ⟨b, hb, rfl⟩ := sameButDeadBits_iff.1 h
  exact sameButDeadBits_iff.2 ⟨b, hb, rfl⟩

/-- The frame of a command passes the agreement of two effects on to the states after them (R88 to R90). -/
theorem EffectsAgree.runCommand {s t s' : State} {e e' : Except FaultCode State} (hagree : EffectsAgree e e')
    (h : s.SameButDeadBits t) (hs : runCommand s e = .next s') :
    ∃ t', Machine.runCommand t e' = .next t' ∧ s'.SameButDeadBits t' := by
  have hfault : t.fault = s.fault := by rw [h.1]
  rcases runCommand_cases hs with ⟨hf, rfl⟩ | ⟨hf, rfl⟩ | ⟨hf, c, rfl, rfl⟩ <;> rw [hf] at hfault
  · exact ⟨t, runCommand_faulted hfault e', h⟩
  · cases hagree with
    | ok h' => exact ⟨_, runCommand_ok hfault _, h'⟩
  · cases hagree with
    | error => exact ⟨_, runCommand_error hfault c, sameButDeadBits_takeFault h c⟩

/-- An instruction carries states that differ in dead bits only to such states. -/
theorem exec_sameButDeadBits {i : Instr} {s t s' : State} (h : s.SameButDeadBits t) (hs : exec i s = .next s') :
    ∃ t', exec i t = .next t' ∧ s'.SameButDeadBits t' := by
  obtain ⟨b, hb, rfl⟩ := sameButDeadBits_iff.1 h
  rw [exec_eq_runCommand] at hs ⊢
  exact (effect_agree i hb).runCommand h hs

/-- The response and the index's advance do not see the buffer (R20, R50). -/
theorem sameButDeadBits_respond {s t : State} (h : s.SameButDeadBits t) : s.respond.SameButDeadBits t.respond := by
  obtain ⟨b, hb, rfl⟩ := sameButDeadBits_iff.1 h
  exact sameButDeadBits_iff.2 ⟨b, hb, rfl⟩

/-- One command's cycle carries states that differ in dead bits only to such states. -/
theorem issue_sameButDeadBits {c : Command} {s t s' : State} (h : s.SameButDeadBits t)
    (hs : issue exec c s = .next s') : ∃ t', issue exec c t = .next t' ∧ s'.SameButDeadBits t' := by
  have hfault : t.fault = s.fault := by rw [h.1]
  unfold issue at hs ⊢
  rw [hfault]
  split_ifs at hs ⊢
  · cases hs
    exact ⟨_, rfl, sameButDeadBits_respond h⟩
  · cases hd : decode c with
    | error e =>
      rw [hd] at hs
      cases hs
      exact ⟨_, rfl, sameButDeadBits_respond (sameButDeadBits_takeFault h .illegal)⟩
    | ok i =>
      rw [hd] at hs
      obtain ⟨u, hu⟩ := exec_next i s
      obtain ⟨v, hv, huv⟩ := exec_sameButDeadBits h hu
      simp only [hu, thenNext] at hs
      cases hs
      exact ⟨v.respond, by simp only [hv, thenNext], sameButDeadBits_respond huv⟩

/-- A step carries states that differ in dead bits only to such states. -/
theorem step_sameButDeadBits {s t s' : State} (h : s.SameButDeadBits t) (hs : step s = .next s') :
    ∃ t', step t = .next t' ∧ s'.SameButDeadBits t' := by
  have hevent : t.nextEvent = s.nextEvent := by rw [h.1]; rfl
  rcases step_cases s with ⟨c, hev, he⟩ | ⟨hev, he⟩ | ⟨_, _, he⟩ | ⟨_, _, he⟩ <;> rw [he] at hs
  · obtain ⟨t', ht', hst⟩ := issue_sameButDeadBits h hs
    exact ⟨t', (step_command (hevent.trans hev)).trans ht', hst⟩
  · cases hs
    refine ⟨t.resetBlock.advance, step_reset (hevent.trans hev), ?_⟩
    obtain ⟨b, -, rfl⟩ := sameButDeadBits_iff.1 h
    exact ⟨rfl, fun _ _ => rfl⟩
  all_goals cases hs

/-- Settles O35: equal responses are part of differing in dead bits only. -/
theorem deadBufferBitsAreUnobservable : Obligations.DeadBufferBitsAreUnobservable := by
  intro s t s' h hs
  obtain ⟨t', ht', hst⟩ := step_sameButDeadBits h hs
  exact ⟨t', ht', hst, by rw [hst.1]⟩

end Sys2Proof.Machine
end

section
/-! The read-type commands (R41): what they answer depends on nothing that they write, so a second issue finds the same
answer, and RES already holds it. -/

namespace Sys2Proof.Machine

/-- The commands whose only write is RES: the reads that R41 lists, and QUANT (R70). -/
inductive ReadType : Instr → Prop
  | specRd (idx sel) : ReadType (.specRd idx sel)
  | quant (idx v) : ReadType (.quant idx v)
  | pkRd (k) : ReadType (.pkRd k)
  | csRd : ReadType .csRd

/-- The obligation's list of the read-type commands. -/
theorem readType_iff {i : Instr} : ReadType i ↔
    (∃ idx sel, i = .specRd idx sel) ∨ (∃ idx v, i = .quant idx v) ∨ (∃ k, i = .pkRd k) ∨ i = .csRd := by
  constructor
  · rintro (⟨idx, sel⟩ | ⟨idx, v⟩ | k | _) <;> simp
  · rintro (⟨idx, sel, rfl⟩ | ⟨idx, v, rfl⟩ | ⟨k, rfl⟩ | rfl) <;> constructor

/-- A read-type command writes RES alone. -/
theorem ReadType.writes_res {i : Instr} (hi : ReadType i) {s t : State} (hw : Writes i s t) : t = s.setRes t.res := by
  cases hi <;> cases hw <;> rfl

/-- What a read-type command answers, its fault too, does not depend on RES. -/
theorem ReadType.effect_setRes {i : Instr} (hi : ReadType i) (s : State) (v : Word64) :
    effect i (s.setRes v) = effect i s := by
  cases hi <;> rfl

/-- Settles O34: the second issue starts from a state that differs in RES alone, or is ignored after a fault. -/
theorem readCommandsChangeOnlyResAndAreIdempotent : Obligations.ReadCommandsChangeOnlyResAndAreIdempotent := by
  intro i s t hread h
  have hi := readType_iff.2 hread
  rw [exec_eq_runCommand] at h ⊢
  rcases runCommand_cases h with ⟨hfault, rfl⟩ | ⟨hlive, he⟩ | ⟨_, c, _, rfl⟩
  · exact ⟨fun _ => rfl, runCommand_faulted hfault _⟩
  · have ht : t = s.setRes t.res := hi.writes_res (effect_writes he)
    have hagain : effect i t = .ok t := by rw [ht, hi.effect_setRes, he, ← ht]
    have htlive : t.fault = false := by rw [ht]; exact hlive
    exact ⟨fun _ => ht, by rw [hagain, runCommand_ok htlive]⟩
  · exact ⟨fun hf => by simp at hf, runCommand_faulted rfl _⟩

end Sys2Proof.Machine
end

section
/-! The stream as bytes and as one number (R34, R35), and what an append makes of it (R33, R71). -/

namespace Sys2Proof.Machine

/-! ## The payload's bytes -/

/-- Every byte of the buffer is a slice of it (R34). -/
theorem pkByte_eq_slice (buf : BitVec 256) {k : Nat} (hk : k < 32) :
    pkByte buf k = buf.extractLsb' (248 - 8 * k) 8 :=
  if_pos hk

/-- Settles O44: the slice's lowest bit is buffer bit 248 - 8k. -/
theorem pkByteSlicesTheStream : Obligations.PkByteSlicesTheStream := by
  intro s k b hk hb
  have hpos : 248 - 8 * k + b = 255 - (8 * k + 7 - b) := by omega
  refine ⟨?_, pkByte_eq_slice _ hk⟩
  rw [pkByte_eq_slice _ hk, BitVec.getLsbD_extractLsb', decide_eq_true hb, Bool.true_and, hpos, State.streamBit]

/-- A byte of the buffer as a digit of the buffer's number. -/
theorem pkByte_toNat (buf : BitVec 256) {k : Nat} (hk : k < 32) :
    (pkByte buf k).toNat = buf.toNat / 2 ^ (248 - 8 * k) % 256 := by
  rw [pkByte_eq_slice _ hk, BitVec.extractLsb'_toNat, Nat.shiftRight_eq_div_pow]

/-- A byte that lies whole in the stream is a digit of the stream's number (R35). -/
theorem pkByte_toNat_of_streamValue (s : State) {k : Nat} (hbits : s.pkBits.toNat ≤ 256)
    (hk : 8 * k + 8 ≤ s.pkBits.toNat) :
    (pkByte s.pkBuf k).toNat = s.streamValue / 2 ^ (s.pkBits.toNat - 8 * k - 8) % 256 := by
  have hexp : 256 - s.pkBits.toNat + (s.pkBits.toNat - 8 * k - 8) = 248 - 8 * k := by omega
  rw [pkByte_toNat _ (by omega), State.streamValue, Nat.div_div_eq_div_mul, ← pow_add, hexp]

/-! ## An append -/

/-- The state that an append of (v, W) without a fault leaves (R71). -/
def State.appended (s : State) (width v : Nat) : State :=
  s.setStream (writeField s.pkBuf (256 - s.pkBits.toNat - width) width v) (BitVec.ofNat 9 (s.pkBits.toNat + width))

/-- `Append` raises no fault exactly where the stream is open, the value fits its width and the field fits the buffer. -/
theorem appendField_eq_ok_iff {s t : State} {width v : Nat} : appendField s width v = .ok t ↔
    s.pkDone = false ∧ v < 2 ^ width ∧ s.pkBits.toNat + width ≤ 256 ∧ t = s.appended width v := by
  rcases appendField_cases s width v with
    ⟨hsealed, he⟩ | ⟨_, hrange, he⟩ | ⟨_, _, hover, he⟩ | ⟨hopen, hrange, hfit, he⟩ <;> rw [he]
  · simp [hsealed]
  · simp [Nat.not_lt.2 hrange]
  · simp [Nat.not_le.2 hover]
  · simp [hopen, hrange, hfit, State.appended, eq_comm]

/-- PK.APP on an unfaulted block leaves it unfaulted exactly where it appends. -/
theorem exec_pkApp_iff {s t : State} {width : Nat} {v : Word64} (hlive : s.fault = false) :
    exec (.pkApp width v) s = .next t ∧ t.fault = false ↔
      s.pkDone = false ∧ v.toNat < 2 ^ width ∧ s.pkBits.toNat + width ≤ 256 ∧ t = s.appended width v.toNat := by
  rw [← appendField_eq_ok_iff, exec_eq_runCommand]
  constructor
  · rintro ⟨h, htlive⟩
    rcases runCommand_cases h with ⟨hfault, _⟩ | ⟨_, he⟩ | ⟨_, c, _, rfl⟩
    · simp [hlive] at hfault
    · exact he
    · simp at htlive
  · intro he
    obtain ⟨-, -, -, rfl⟩ := appendField_eq_ok_iff.1 he
    exact ⟨by rw [effect, he, runCommand_ok hlive], hlive⟩

/-- The length after an append that fits. -/
theorem State.appended_pkBits {s : State} {width : Nat} (v : Nat) (hfit : s.pkBits.toNat + width ≤ 256) :
    (s.appended width v).pkBits.toNat = s.pkBits.toNat + width :=
  append_bits _ _ hfit

/-- A written field as a number: the bits above it, then the field. -/
theorem writeField_toNat_div (buf : BitVec 256) {lo width v : Nat} (hfit : lo + width ≤ 256) (hv : v < 2 ^ width) :
    (writeField buf lo width v).toNat / 2 ^ lo = buf.toNat / 2 ^ (lo + width) * 2 ^ width + v := by
  refine Nat.eq_of_testBit_eq fun i => ?_
  rw [Nat.mul_comm, Nat.testBit_two_pow_mul_add _ hv, Nat.testBit_div_two_pow, Nat.testBit_div_two_pow,
    BitVec.testBit_toNat, BitVec.testBit_toNat]
  by_cases hi : i + lo < 256
  · rw [writeField_getLsbD _ _ _ _ _ hi]
    by_cases hfield : i < width
    · simp [hfield, show i + lo < lo + width by omega]
    · simp [hfield, show ¬ i + lo < lo + width by omega, show i - width + (lo + width) = i + lo by omega]
  · have hfield : ¬ i < width := by omega
    simp [hfield, BitVec.getLsbD_of_ge, show 256 ≤ i + lo by omega, show 256 ≤ i - width + (lo + width) by omega]

/-- An append shifts the stream's number and puts the value below it (R35). -/
theorem State.appended_streamValue {s : State} {width v : Nat} (hfit : s.pkBits.toNat + width ≤ 256)
    (hv : v < 2 ^ width) : (s.appended width v).streamValue = s.streamValue * 2 ^ width + v := by
  have hlo : 256 - s.pkBits.toNat - width + width = 256 - s.pkBits.toNat := by omega
  rw [streamValue, appended_pkBits v hfit, ← Nat.sub_sub, appended, setStream_pkBuf,
    writeField_toNat_div _ (by omega) hv, hlo, streamValue]

/-- Settles O45: the append by its number, the bytes as the number's digits to the base 256. -/
theorem payloadIsOneBigEndianNumber : Obligations.PayloadIsOneBigEndianNumber := by
  refine ⟨fun s t w v hlive htlive _ h => ?_, fun s k => pkByte_toNat_of_streamValue s⟩
  obtain ⟨_, hv, hfit, rfl⟩ := (exec_pkApp_iff hlive).1 ⟨h, htlive⟩
  exact State.appended_streamValue hfit hv

end Sys2Proof.Machine
end

section
/-! A field list packed between PK.CLR and PK.FIN (R33, R71, R77). The stream is kept as its list of bits, whose length is
PK.BITS; each append puts the field's bits at its end. -/

namespace Sys2Proof.Machine

/-! ## Sequences -/

/-- The first instruction of a sequence. -/
theorem runInstrs_cons {i : Instr} {s t : State} (h : exec i s = .next t) (rest : List Instr) :
    runInstrs (i :: rest) s = runInstrs rest t := by
  rw [runInstrs, h]

/-- A sequence of one instruction. -/
theorem runInstrs_singleton (i : Instr) (s : State) : runInstrs [i] s = exec i s := by
  obtain ⟨t, ht⟩ := exec_next i s
  rw [runInstrs_cons ht, ht, runInstrs]

/-- A sequence goes on where its first part ends. -/
theorem runInstrs_append {is : List Instr} {s t : State} (h : runInstrs is s = .next t) (rest : List Instr) :
    runInstrs (is ++ rest) s = runInstrs rest t := by
  induction is generalizing s with
  | nil => cases h; rfl
  | cons i is ih =>
    obtain ⟨u, hu⟩ := exec_next i s
    rw [runInstrs_cons hu] at h
    rw [List.cons_append, runInstrs_cons hu, ih h]

/-! ## The stream as a list of bits -/

/-- The stream's bits, the first appended one first (R33). -/
def State.streamBits (s : State) : List Bool := (List.range s.pkBits.toNat).map s.streamBit

/-- PK.BITS is the stream's length (R27). -/
@[simp] theorem State.streamBits_length (s : State) : s.streamBits.length = s.pkBits.toNat := by
  simp [streamBits]

/-- A field has as many bits as its width says (R11). -/
@[simp] theorem binBits_length (width v : Nat) : (binBits width v).length = width := by
  simp [binBits]

/-- A bit of the stream after an append: the field's bits stand at B to B + W - 1, most significant first (R33). -/
theorem State.appended_streamBit {s : State} {width j : Nat} (v : Nat) (hfit : s.pkBits.toNat + width ≤ 256)
    (hj : j < s.pkBits.toNat + width) :
    (s.appended width v).streamBit j =
      if j < s.pkBits.toNat then s.streamBit j else v.testBit (width - 1 - (j - s.pkBits.toNat)) := by
  rw [streamBit, appended, setStream_pkBuf, writeField_getLsbD _ _ _ _ _ (by omega)]
  by_cases hold : j < s.pkBits.toNat
  · rw [if_neg (by omega), if_pos hold, streamBit]
  · rw [if_pos (by omega), if_neg hold]
    congr 1
    omega

/-- An append puts the field's bits at the stream's end (R33). -/
theorem State.appended_streamBits {s : State} {width : Nat} (v : Nat) (hfit : s.pkBits.toNat + width ≤ 256) :
    (s.appended width v).streamBits = s.streamBits ++ binBits width v := by
  rw [streamBits, appended_pkBits v hfit, List.range_add, List.map_append, List.map_map]
  congr 1 <;> refine List.map_congr_left fun j hj => ?_ <;> rw [List.mem_range] at hj
  · rw [appended_streamBit v hfit (by omega), if_pos hj]
  · rw [Function.comp_apply, appended_streamBit v hfit (by omega), if_neg (by omega), Nat.add_sub_cancel_left]

/-! ## A field list -/

/-- The appends of a field list, in order. -/
def pkApps (fields : List (Nat × Word64)) : List Instr := fields.map fun f => .pkApp f.1 f.2

/-- The concatenation of the fields' bits (R33). -/
def fieldBits (fields : List (Nat × Word64)) : List Bool := fields.flatMap fun f => binBits f.1 f.2.toNat

/-- It is as long as the widths' sum. -/
theorem fieldBits_length (fields : List (Nat × Word64)) : (fieldBits fields).length = (fields.map Prod.fst).sum := by
  simp [fieldBits, List.length_flatMap]

/-- The appends of fields that fit add their bits to an open stream, and write nothing but the stream (R71). -/
theorem runInstrs_pkApps (fields : List (Nat × Word64)) (s : State) (hlive : s.fault = false)
    (hopen : s.pkDone = false) (hrange : ∀ f ∈ fields, f.2.toNat < 2 ^ f.1)
    (hfit : s.pkBits.toNat + (fields.map Prod.fst).sum ≤ 256) :
    ∃ buf bits, runInstrs (pkApps fields) s = .next (s.setStream buf bits) ∧
      (s.setStream buf bits).streamBits = s.streamBits ++ fieldBits fields := by
  induction fields generalizing s with
  | nil => exact ⟨s.pkBuf, s.pkBits, rfl, (List.append_nil _).symm⟩
  | cons f fields ih =>
    rw [List.forall_mem_cons] at hrange
    rw [List.map_cons, List.sum_cons] at hfit
    have hroom : s.pkBits.toNat + f.1 ≤ 256 := by omega
    have hexec := ((exec_pkApp_iff hlive).2 ⟨hopen, hrange.1, hroom, rfl⟩).1
    obtain ⟨buf, bits, hrun, hbits⟩ := ih (s.appended f.1 f.2.toNat) hlive hopen hrange.2
      (by rw [State.appended_pkBits _ hroom]; omega)
    refine ⟨buf, bits, (runInstrs_cons hexec _).trans hrun, hbits.trans ?_⟩
    rw [State.appended_streamBits _ hroom, List.append_assoc]
    rfl

/-- PK.CLR and the appends leave the fields' bits as the open stream, on which PK.FIN then works (R72, R71). -/
theorem runInstrs_pack {s : State} {fields : List (Nat × Word64)} (hlive : s.fault = false)
    (hrange : ∀ f ∈ fields, f.2.toNat < 2 ^ f.1) (hfit : (fields.map Prod.fst).sum ≤ 256) :
    ∃ buf bits, runInstrs (.pkClr :: pkApps fields ++ [.pkFin]) s =
        exec .pkFin ((s.setDone false).setStream buf bits) ∧
      ((s.setDone false).setStream buf bits).streamBits = fieldBits fields := by
  have hclr : exec .pkClr s = .next ((s.setDone false).setStream s.pkBuf 0) := runCommand_ok hlive _
  obtain ⟨buf, bits, hrun, hbits⟩ := runInstrs_pkApps fields ((s.setDone false).setStream s.pkBuf 0) hlive rfl
    hrange (by simpa using hfit)
  refine ⟨buf, bits, ?_, hbits⟩
  rw [List.cons_append, runInstrs_cons hclr, runInstrs_append hrun, runInstrs_singleton]
  rfl

/-- PK.FIN seals a stream of whole bytes, and RES takes their number (R75). -/
theorem exec_pkFin_aligned {s : State} (hlive : s.fault = false) (halign : s.pkBits.toNat % 8 = 0) :
    exec .pkFin s = .next ((s.setDone true).setRes (zextNat s.nBytes)) := by
  rw [exec_eq_runCommand, effect, if_pos halign, runCommand_ok hlive]

/-- PK.FIN of any other stream is a fault (R75). -/
theorem exec_pkFin_misaligned {s : State} (hlive : s.fault = false) (halign : s.pkBits.toNat % 8 ≠ 0) :
    exec .pkFin s = .next (s.takeFault .pkAlign) := by
  rw [exec_eq_runCommand, effect, if_neg halign, runCommand_error hlive]

/-- NBYTES enters RES whole (R32, R75). -/
theorem zextNat_nBytes_toNat (s : State) : (zextNat s.nBytes).toNat = s.pkBits.toNat / 8 := by
  rw [zextNat, BitVec.toNat_ofNat, State.nBytes]
  omega

/-- Settles O46: the packed stream's length is the widths' sum, which decides what PK.FIN does. -/
theorem packingAFieldListConcatenatesItsBits : Obligations.PackingAFieldListConcatenatesItsBits := by
  intro s fields hlive hfields hfit
  obtain ⟨buf, bits, hrun, hbits⟩ := runInstrs_pack hlive (fun f hf => (hfields f hf).2) hfit
  have hlen : bits.toNat = (fields.map Prod.fst).sum := by
    rw [← fieldBits_length, ← hbits, State.streamBits_length, State.setStream_pkBits]
  rw [← hlen]
  refine ⟨fun halign => ?_, fun halign => ?_⟩
  · exact ⟨_, hrun.trans (exec_pkFin_aligned hlive halign), rfl, rfl, zextNat_nBytes_toNat _, hbits⟩
  · exact ⟨_, hrun.trans (exec_pkFin_misaligned hlive halign), rfl, rfl, rfl⟩

end Sys2Proof.Machine
end

section
/-! The decoder and the encoder as one map (R52, R57, R58): a row of the opcode map selects exactly the words of the
instructions it builds, and no two rows select one word. -/

namespace Sys2Proof

open Machine (toNat_append_eq_add)

/-! ## The fields of the C format -/

/-- The C format as a number, each field at its position (R52). -/
theorem cFormat_toNat (opc : Byte) (idx : BitVec 3) (wm1 : BitVec 5) (imm8 : Byte) :
    (cFormat opc idx wm1 imm8).toNat =
      imm8.toNat * 2 ^ 24 + wm1.toNat * 2 ^ 16 + idx.toNat * 2 ^ 8 + opc.toNat := by
  simp only [cFormat, toNat_append_eq_add, BitVec.toNat_ofNat]
  omega

/-- A slice of a word as a digit group of its number. -/
theorem extractLsb'_eq_iff {n len : Nat} (x : BitVec n) (start : Nat) (y : BitVec len) :
    x.extractLsb' start len = y ↔ x.toNat / 2 ^ start % 2 ^ len = y.toNat := by
  rw [← BitVec.toNat_inj, BitVec.extractLsb'_toNat, Nat.shiftRight_eq_div_pow]

/-- The fields of the C format are read back at their positions (R52). -/
theorem cFormat_fields (opc : Byte) (idx : BitVec 3) (wm1 : BitVec 5) (imm8 : Byte) :
    (cFormat opc idx wm1 imm8).extractLsb' 0 8 = opc ∧ (cFormat opc idx wm1 imm8).extractLsb' 8 3 = idx ∧
      (cFormat opc idx wm1 imm8).extractLsb' 16 5 = wm1 ∧ (cFormat opc idx wm1 imm8).extractLsb' 24 8 = imm8 := by
  simp only [extractLsb'_eq_iff, cFormat_toNat]
  omega

/-- A word is its four fields and its two reserved ones (R52). -/
theorem word_eq_fields (cmd : Word32) :
    cmd.extractLsb' 24 8 ++ cmd.extractLsb' 21 3 ++ cmd.extractLsb' 16 5 ++ cmd.extractLsb' 11 5 ++
      cmd.extractLsb' 8 3 ++ cmd.extractLsb' 0 8 = cmd := by
  refine BitVec.eq_of_toNat_eq ?_
  simp only [toNat_append_eq_add, BitVec.extractLsb'_toNat, Nat.shiftRight_eq_div_pow]
  omega

/-! ## A row's words -/

/-- Words put together of fields agree just if the fields do. -/
theorem bitVec_append_inj {m n : Nat} {x x' : BitVec m} {y y' : BitVec n} :
    x ++ y = x' ++ y' ↔ x = x' ∧ y = y' := by
  refine ⟨fun h => ⟨?_, ?_⟩, fun ⟨hx, hy⟩ => by rw [hx, hy]⟩
  · simpa [BitVec.extractLsb'_append_eq_left] using congrArg (·.extractLsb' n m) h
  · simpa [BitVec.extractLsb'_append_eq_right] using congrArg (·.extractLsb' 0 n) h

/-- A field is 0 under a mask where it keeps its value without the mask's bits. -/
theorem and_eq_zero_iff {n : Nat} (x m : BitVec n) : x &&& m = 0#n ↔ x &&& ~~~m = x := by
  have hbit (a b : Bool) : (a && b) = false ↔ (a && !b) = a := by cases a <;> cases b <;> decide
  simp only [BitVec.eq_of_getElem_eq_iff, BitVec.getElem_and, BitVec.getElem_not, BitVec.getElem_zero, hbit]

/-- A row's agreement, field by field: the opcode agrees, and the reserved and the masked bits are 0. -/
theorem fields_and_mask_eq_iff (b mb o opc : BitVec 8) (r : BitVec 3) (w mw s : BitVec 5) (x mx : BitVec 3) :
    (b ++ r ++ w ++ s ++ x ++ o) &&& (mb ++ BitVec.allOnes 3 ++ mw ++ BitVec.allOnes 5 ++ mx ++ BitVec.allOnes 8)
        = 0#8 ++ 0#3 ++ 0#5 ++ 0#5 ++ 0#3 ++ opc ↔
      (b &&& ~~~mb) ++ 0#3 ++ (w &&& ~~~mw) ++ 0#5 ++ (x &&& ~~~mx) ++ opc = b ++ r ++ w ++ s ++ x ++ o := by
  simp only [BitVec.and_append, bitVec_append_inj, BitVec.and_allOnes, and_eq_zero_iff _ mb, and_eq_zero_iff _ mw,
    and_eq_zero_iff _ mx, eq_comm (a := r), eq_comm (a := s), eq_comm (a := o)]

/-- A mask of the opcode map: the opcode, the reserved fields, and those of the other fields that the row does not use
(R57). -/
def rowMask (idx wm1 imm8 : Bool) : Word32 :=
  cond imm8 0#8 (BitVec.allOnes 8) ++ BitVec.allOnes 3 ++ cond wm1 0#5 (BitVec.allOnes 5) ++ BitVec.allOnes 5 ++
    cond idx 0#3 (BitVec.allOnes 3) ++ BitVec.allOnes 8

/-- A word agrees with an opcode under a row's mask just if it is the C format of the opcode and its used fields. -/
theorem and_rowMask_eq_iff {mask pattern : Word32} (opc : Byte) (idx wm1 imm8 : Bool) (cmd : Word32)
    (hmask : mask = rowMask idx wm1 imm8) (hpattern : pattern = cFormat opc 0 0 0) :
    cmd &&& mask = pattern ↔
      cFormat opc (cond idx (cmd.extractLsb' 8 3) 0) (cond wm1 (cmd.extractLsb' 16 5) 0)
        (cond imm8 (cmd.extractLsb' 24 8) 0) = cmd := by
  have h := fields_and_mask_eq_iff (cmd.extractLsb' 24 8) (cond imm8 0#8 (BitVec.allOnes 8)) (cmd.extractLsb' 0 8) opc
    (cmd.extractLsb' 21 3) (cmd.extractLsb' 16 5) (cond wm1 0#5 (BitVec.allOnes 5)) (cmd.extractLsb' 11 5)
    (cmd.extractLsb' 8 3) (cond idx 0#3 (BitVec.allOnes 3))
  have hcond (n : Nat) (used : Bool) (x : BitVec n) :
      x &&& ~~~(cond used 0#n (BitVec.allOnes n)) = cond used x 0 := by cases used <;> simp
  rw [word_eq_fields, hcond, hcond, hcond] at h
  rw [hmask, hpattern]
  exact h

/-! ## A row's instruction -/

theorem OpRow.selects_iff {r : OpRow} {cmd : Word32} : r.selects cmd = true ↔ cmd &&& r.mask = r.pattern :=
  beq_iff_eq

@[simp] theorem idxField_idx (c : Command) : idxField c.idx = c.cmd.extractLsb' 8 3 :=
  (BitVec.ofNat_toNat _ _).trans (BitVec.setWidth_eq _)

@[simp] theorem wm1Field_width (c : Command) : wm1Field c.width = c.cmd.extractLsb' 16 5 :=
  (BitVec.ofNat_toNat _ _).trans (BitVec.setWidth_eq _)

/-- A row selects exactly the words that its instruction encodes to. -/
theorem selects_iff_encode : ∀ r ∈ opcodeMap, ∀ c : Command,
    r.selects c.cmd = true ↔ (encode (r.build c)).cmd = c.cmd := by
  simp only [OpRow.selects_iff, opcodeMap, List.forall_mem_cons, encode, idxField_idx, wm1Field_width]
  refine ⟨?_, ?_, ?_, ?_, ?_, ?_, ?_, ?_, ?_, ?_, ?_, ?_, ?_, by simp⟩ <;> intro c
  · exact and_rowMask_eq_iff 0x00 false false false c.cmd (by decide) (by decide)
  · exact and_rowMask_eq_iff 0x01 true true false c.cmd (by decide) (by decide)
  · exact and_rowMask_eq_iff 0x02 true false true c.cmd (by decide) (by decide)
  · exact and_rowMask_eq_iff 0x03 true false false c.cmd (by decide) (by decide)
  · exact and_rowMask_eq_iff 0x10 false false false c.cmd (by decide) (by decide)
  · exact and_rowMask_eq_iff 0x11 false true false c.cmd (by decide) (by decide)
  · exact and_rowMask_eq_iff 0x12 true false false c.cmd (by decide) (by decide)
  · exact and_rowMask_eq_iff 0x13 false false false c.cmd (by decide) (by decide)
  · exact and_rowMask_eq_iff 0x14 false false true c.cmd (by decide) (by decide)
  · exact and_rowMask_eq_iff 0x20 false false false c.cmd (by decide) (by decide)
  · exact and_rowMask_eq_iff 0x21 false false true c.cmd (by decide) (by decide)
  · exact and_rowMask_eq_iff 0x22 false false false c.cmd (by decide) (by decide)
  · exact and_rowMask_eq_iff 0x23 false false false c.cmd (by decide) (by decide)

/-! ## The decoder -/

/-- The row of a word's opcode: no row's mask leaves a bit of the opcode out (R57). -/
theorem OpRow.opc_of_selects : ∀ r ∈ opcodeMap, ∀ c : Command,
    r.selects c.cmd = true → c.opc = r.pattern.extractLsb' 0 8 := by
  have hmask : ∀ r ∈ opcodeMap, r.mask.extractLsb' 0 8 = BitVec.allOnes 8 := by decide
  intro r hr c h
  rw [← OpRow.selects_iff.1 h, BitVec.extractLsb'_and, hmask r hr, BitVec.and_allOnes, Command.opc]

/-- Each opcode has one row (R57). -/
theorem opcodeMap_opcodes_nodup : (opcodeMap.map fun r => r.pattern.extractLsb' 0 8).Nodup := by decide

/-- The rows are told apart by their opcodes. -/
theorem OpRow.eq_of_opc {r q : OpRow} (hr : r ∈ opcodeMap) (hq : q ∈ opcodeMap)
    (h : r.pattern.extractLsb' 0 8 = q.pattern.extractLsb' 0 8) : r = q :=
  List.inj_on_of_nodup_map opcodeMap_opcodes_nodup hr hq h

/-- Settles O4: two rows that select a word have its opcode. -/
theorem atMostOneRowSelectsAWord : Obligations.AtMostOneRowSelectsAWord := by
  refine (List.pairwise_map.1 opcodeMap_opcodes_nodup).imp_of_mem fun {r q} hr hq hne cmd ⟨hselr, hselq⟩ => hne ?_
  rw [← OpRow.opc_of_selects r hr ⟨cmd, 0, 0⟩ hselr, OpRow.opc_of_selects q hq ⟨cmd, 0, 0⟩ hselq]

/-- A word decodes to i just if a row selects it and builds i (R57). -/
theorem decode_eq_ok_iff {c : Command} {i : Instr} :
    decode c = .ok i ↔ ∃ r ∈ opcodeMap, r.selects c.cmd = true ∧ r.build c = i := by
  unfold decode
  cases hfind : opcodeMap.find? fun r => r.selects c.cmd with
  | none =>
    have hnone := List.find?_eq_none.1 hfind
    constructor
    · intro h
      dsimp only at h
      split at h <;> cases h
    · rintro ⟨r, hr, hsel, _⟩
      exact absurd hsel (hnone r hr)
  | some q =>
    have hq := List.mem_of_find?_eq_some hfind
    have hsel := List.find?_some hfind
    constructor
    · rintro ⟨⟩
      exact ⟨q, hq, hsel, rfl⟩
    · rintro ⟨r, hr, hselr, rfl⟩
      rw [OpRow.eq_of_opc hr hq (by rw [← OpRow.opc_of_selects r hr c hselr, OpRow.opc_of_selects q hq c hsel])]

/-- A word that agrees with the k-th row decodes to that row's instruction (R57). -/
theorem decode_row (k : Nat) (hk : k < opcodeMap.length) (c : Command)
    (h : c.cmd &&& opcodeMap[k].mask = opcodeMap[k].pattern) : decode c = .ok (opcodeMap[k].build c) :=
  decode_eq_ok_iff.2 ⟨_, List.getElem_mem hk, OpRow.selects_iff.2 h, rfl⟩

/-- Settles O3: the rows one by one, and `decode_eq_ok_iff`. -/
theorem opcodeMapSelectsEachOperation : Obligations.OpcodeMapSelectsEachOperation := by
  intro c
  have hrow (k : Fin 13) := decode_row k k.isLt c
  refine ⟨hrow 0, hrow 1, hrow 2, hrow 3, hrow 4, hrow 5, hrow 6, hrow 7, hrow 8, hrow 9, hrow 10, hrow 11, hrow 12,
    fun i h => ?_⟩
  obtain ⟨r, hr, hsel, -⟩ := decode_eq_ok_iff.1 h
  exact ⟨(r.mask, r.pattern), List.mem_map_of_mem (f := fun r : OpRow => (r.mask, r.pattern)) hr,
    OpRow.selects_iff.1 hsel⟩

/-- Settles O2: the selecting row's instruction encodes to the word. -/
theorem decodedWordIsTheEncodedWord : Obligations.DecodedWordIsTheEncodedWord := by
  intro c i h
  obtain ⟨r, hr, hsel, rfl⟩ := decode_eq_ok_iff.1 h
  exact ⟨Machine.decode_wellFormed h, (selects_iff_encode r hr c).1 hsel⟩

/-! ## The encoder -/

/-- The opcode of a word in the C format. -/
@[simp] theorem opc_cFormat (opc : Byte) (idx wm1 imm8) (a b : Word64) :
    (⟨cFormat opc idx wm1 imm8, a, b⟩ : Command).opc = opc :=
  (cFormat_fields opc idx wm1 imm8).1

/-- The entry encoded is the entry read (R53). -/
@[simp] theorem idx_cFormat (opc : Byte) (idx : SpecIdx) (wm1 imm8) (a b : Word64) :
    (⟨cFormat opc (idxField idx) wm1 imm8, a, b⟩ : Command).idx = idx := by
  obtain ⟨-, hidx, -, -⟩ := cFormat_fields opc (idxField idx) wm1 imm8
  refine Fin.ext ?_
  simp only [Command.idx, hidx]
  rw [idxField, BitVec.toNat_ofNat, Nat.mod_eq_of_lt idx.isLt]

/-- The width encoded is the width read (R54). -/
theorem width_cFormat (opc : Byte) (idx) {width : Nat} (imm8) (a b : Word64) (h : WidthOk width) :
    (⟨cFormat opc idx (wm1Field width) imm8, a, b⟩ : Command).width = width := by
  obtain ⟨-, -, hwm1, -⟩ := cFormat_fields opc idx (wm1Field width) imm8
  obtain ⟨hmin, hmax⟩ := h
  simp only [Config.wMax] at hmax
  rw [Command.width, hwm1, wm1Field, BitVec.toNat_ofNat]
  omega

/-- The byte encoded is the byte read (R55). -/
@[simp] theorem imm8_cFormat (opc : Byte) (idx wm1) (imm8 : Byte) (a b : Word64) :
    (⟨cFormat opc idx wm1 imm8, a, b⟩ : Command).imm8 = imm8 := by
  obtain ⟨-, -, -, himm8⟩ := cFormat_fields opc idx wm1 imm8
  exact himm8

/-- Each instruction that has an encoding is built again by its row from its encoding. -/
theorem exists_row_build {i : Instr} (h : i.WellFormed) : ∃ r ∈ opcodeMap, r.build (encode i) = i := by
  have hrow (k : Fin 13) (hk : opcodeMap[k].build (encode i) = i) : ∃ r ∈ opcodeMap, r.build (encode i) = i :=
    ⟨_, List.getElem_mem k.isLt, hk⟩
  cases i with
  | nop => exact hrow 0 rfl
  | specWr idx width mn mx => exact hrow 1 (by simp [opcodeMap, encode, width_cFormat _ _ _ _ _ h])
  | specRd idx sel => exact hrow 2 (by simp [opcodeMap, encode])
  | quant idx v => exact hrow 3 (by simp [opcodeMap, encode])
  | pkClr => exact hrow 4 rfl
  | pkApp width v => exact hrow 5 (by simp [opcodeMap, encode, width_cFormat _ _ _ _ _ h])
  | pkQapp idx v => exact hrow 6 (by simp [opcodeMap, encode])
  | pkFin => exact hrow 7 rfl
  | pkRd k => exact hrow 8 (by simp [opcodeMap, encode])
  | csClr => exact hrow 9 rfl
  | csAdd b => exact hrow 10 (by simp [opcodeMap, encode])
  | csPk => exact hrow 11 rfl
  | csRd => exact hrow 12 rfl

/-- Settles O1: the row that builds i from its encoding selects the encoding, by `selects_iff_encode`. -/
theorem decodeOfEncodeIsTheInstruction : Obligations.DecodeOfEncodeIsTheInstruction := by
  intro i hi
  obtain ⟨r, hr, hbuild⟩ := exists_row_build hi
  exact decode_eq_ok_iff.2 ⟨r, hr, (selects_iff_encode r hr (encode i)).2 (by rw [hbuild]), hbuild⟩

/-- Settles O7, by running the decoder on the six words. -/
theorem wordsOfTheFormatDecode : Obligations.WordsOfTheFormatDecode :=
  ⟨rfl, rfl, rfl, rfl, rfl, rfl⟩

end Sys2Proof
end

section
/-! One command at the port, by what the decoder makes of it (R51, R56, R59). -/

namespace Sys2Proof.Machine

/-! ## The cycle -/

/-- A faulted block ignores the command, but for its response (R90). -/
theorem issue_faulted {c : Command} {s : State} (hfault : s.fault = true) : issue exec c s = .next s.respond := by
  simp [issue, hfault]

/-- A command that does not decode takes the fault entry with ILLEGAL, on a block without a fault (R58). -/
theorem issue_illegal {c : Command} {s : State} {e : DecodeError} (hlive : s.fault = false)
    (hdec : decode c = .error e) : issue exec c s = .next (s.takeFault .illegal).respond := by
  simp [issue, hlive, hdec]

/-- A command that decodes is executed and responds, also where the block is faulted and ignores it (R51, R90). -/
theorem issue_decoded {c : Command} {i : Instr} {s t : State} (hdec : decode c = .ok i) (hexec : exec i s = .next t) :
    issue exec c s = .next t.respond := by
  cases hfault : s.fault with
  | true =>
    rw [exec_eq_runCommand, runCommand_faulted hfault] at hexec
    cases hexec
    exact issue_faulted hfault
  | false => simp [issue, hfault, hdec, hexec, thenNext]

/-- Settles O8, by `issue_decoded`: the response is STATUS and RES of the state after the command. -/
theorem stepRunsTheDecodedInstruction : Obligations.StepRunsTheDecodedInstruction := by
  intro s c i hev hdec
  obtain ⟨t, ht⟩ := exec_next i s
  rw [step_command hev, issue_decoded hdec ht, ht]
  rfl

/-- A command leaves the host's side of the port as it found it. -/
theorem Performs.host {s u : State} (hp : Performs s u) :
    u.program = s.program ∧ u.pc = s.pc ∧ u.responses = s.responses := by
  cases hp with
  | ignored => exact ⟨rfl, rfl, rfl⟩
  | faults c => exact ⟨rfl, rfl, rfl⟩
  | writes _ _ hw =>
    obtain ⟨-, -, hhost⟩ := hw.frame
    exact hhost

/-- Settles O11: whatever the command performs, the cycle ends in its response. -/
theorem everyCommandReturnsOneResponse : Obligations.EveryCommandReturnsOneResponse := by
  intro s c hev
  obtain ⟨u, hu, hissue⟩ := issue_performs c s
  obtain ⟨hprog, hpc, hresp⟩ := hu.host
  refine ⟨u.respond, (step_command hev).trans hissue, ?_, (statusHoldsItsFields _).1, ?_, hprog⟩
  · rw [State.respond_responses, hresp, State.response, State.status_respond, State.respond_res]
  · rw [State.respond_pc, hpc]

/-! ## Illegal encodings -/

/-- A word that no row selects does not decode. -/
theorem decode_error {c : Command} (h : ∀ r ∈ opcodeMap, r.selects c.cmd = false) : ∃ e, decode c = .error e := by
  cases hdec : decode c with
  | error e => exact ⟨e, rfl⟩
  | ok i =>
    obtain ⟨r, hr, hsel, -⟩ := decode_eq_ok_iff.1 hdec
    simp [h r hr] at hsel

/-- A word with an opcode that is not in the map does not decode (R59). -/
theorem decode_error_of_opc {c : Command} (h : ∀ r ∈ opcodeMap, c.opc ≠ r.pattern.extractLsb' 0 8) :
    ∃ e, decode c = .error e :=
  decode_error fun r hr => Bool.eq_false_iff.2 fun hsel => h r hr (OpRow.opc_of_selects r hr c hsel)

/-- The opcodes that R59 lists as reserved. -/
abbrev ReservedOpc (opc : Byte) : Prop :=
  (0x04 ≤ opc.toNat ∧ opc.toNat ≤ 0x0F) ∨ (0x15 ≤ opc.toNat ∧ opc.toNat ≤ 0x1F) ∨ 0x24 ≤ opc.toNat

/-- They are not in the map (R59). -/
theorem opc_ne_of_reserved {opc : Byte} (h : ReservedOpc opc) : ∀ r ∈ opcodeMap, opc ≠ r.pattern.extractLsb' 0 8 := by
  have hassigned : ∀ r ∈ opcodeMap, ¬ ReservedOpc (r.pattern.extractLsb' 0 8) := by decide
  rintro r hr rfl
  exact hassigned r hr h

/-- A word with an assigned opcode and a 1 in another bit of its row's mask does not decode (R59). -/
theorem decode_error_of_bits {c : Command} {r : OpRow} (hr : r ∈ opcodeMap)
    (hopc : r.pattern.extractLsb' 0 8 = c.opc) (hbits : c.cmd &&& r.mask &&& 0xFFFFFF00 ≠ 0) :
    ∃ e, decode c = .error e := by
  have hpattern : ∀ r ∈ opcodeMap, r.pattern &&& 0xFFFFFF00 = 0 := by decide
  refine decode_error fun q hq => Bool.eq_false_iff.2 fun hsel => hbits ?_
  rw [OpRow.eq_of_opc hr hq (hopc.trans (OpRow.opc_of_selects q hq c hsel)), OpRow.selects_iff.1 hsel, hpattern q hq]

/-- SPEC.RD of a selector from 3 on is a fault (R69). -/
theorem exec_specRd_illegal {s : State} {idx : SpecIdx} {sel : Byte} (hlive : s.fault = false) (h : 3 ≤ sel.toNat) :
    exec (.specRd idx sel) s = .next (s.takeFault .illegal) := by
  have hne (n : Byte) (hn : n.toNat < 3) : sel ≠ n := fun he => by rw [he] at h; omega
  have hword : (s.entry idx).word sel = none := by
    rw [SpecEntry.word, if_neg (hne 0 (by decide)), if_neg (hne 1 (by decide)), if_neg (hne 2 (by decide))]
  rw [exec_eq_runCommand, effect, hword]
  exact runCommand_error hlive _

/-- Settles O5: the first two kinds of word do not decode, the third is SPEC.RD's. -/
theorem reservedEncodingsFaultWithIllegal : Obligations.ReservedEncodingsFaultWithIllegal := by
  intro s c hev hlive
  have hillegal : (∃ e, decode c = .error e) → step s = .next ({ s with fault := true, fcode := 1 } : State).respond :=
    fun ⟨_, hdec⟩ => (step_command hev).trans (issue_illegal hlive hdec)
  refine ⟨fun hopc => hillegal (decode_error_of_opc (opc_ne_of_reserved hopc)),
    fun r hr hopc hbits => hillegal (decode_error_of_bits hr hopc hbits), fun hrow hsel => ?_, ?_⟩
  · exact (step_command hev).trans (issue_decoded (decode_row 2 (by decide) c hrow) (exec_specRd_illegal hlive hsel))
  · cases hdec : decode c with
    | ok i => exact .inl ⟨i, rfl⟩
    | error e => exact .inr (hillegal ⟨e, hdec⟩)

/-! ## Operand words -/

/-- A row builds its instruction of the operand words that R56 gives its opcode, and of no other. -/
theorem OpRow.build_congr (cmd : Word32) (a b a' b' : Word64) : ∀ r ∈ opcodeMap,
    (r.pattern.extractLsb' 0 8 ∈ ([0x01, 0x03, 0x11, 0x12] : List Byte) → a = a') →
    (r.pattern.extractLsb' 0 8 = 0x01 → b = b') → r.build ⟨cmd, a, b⟩ = r.build ⟨cmd, a', b'⟩ := by
  simp +contextual [opcodeMap, Command.idx, Command.width, Command.imm8]

/-- Words that differ at most in operand words that their opcode does not use decode alike (R56). -/
theorem decode_congr {cmd : Word32} {a b a' b' : Word64}
    (ha : cmd.extractLsb' 0 8 ∈ ([0x01, 0x03, 0x11, 0x12] : List Byte) → a = a')
    (hb : cmd.extractLsb' 0 8 = 0x01 → b = b') : decode ⟨cmd, a, b⟩ = decode ⟨cmd, a', b'⟩ := by
  unfold decode
  cases hfind : opcodeMap.find? fun r => r.selects cmd with
  | none => rfl
  | some r =>
    have hr := List.mem_of_find?_eq_some hfind
    have hsel : r.selects cmd = true := List.find?_some (p := fun r : OpRow => r.selects cmd) hfind
    have hopc : cmd.extractLsb' 0 8 = r.pattern.extractLsb' 0 8 := OpRow.opc_of_selects r hr ⟨cmd, a, b⟩ hsel
    rw [hopc] at ha hb
    exact congrArg Except.ok (OpRow.build_congr cmd a b a' b' r hr ha hb)

/-- The instruction's operand words are the command's: MIN and MAX, a field value, a value to quantize (R56). -/
def OperandsOf (c : Command) : Instr → Prop
  | .specWr _ _ mn mx => mn = c.opa ∧ mx = c.opb
  | .quant _ v | .pkApp _ v | .pkQapp _ v => v = c.opa
  | _ => True

theorem operandsOf_of_decode {c : Command} {i : Instr} (h : decode c = .ok i) : OperandsOf c i := by
  have hrow : ∀ r ∈ opcodeMap, OperandsOf c (r.build c) := by simp [opcodeMap, OperandsOf]
  obtain ⟨r, hr, -, rfl⟩ := decode_eq_ok_iff.1 h
  exact hrow r hr

/-- A cycle neither reads nor writes the host's list, and of the command it reads what the decoder makes of it (R50). -/
theorem issue_withProgram {c d : Command} (hdec : decode c = decode d) (s : State) (p : List HostEvent) :
    ∃ s', issue exec c s = .next s' ∧ issue exec d { s with program := p } = .next { s' with program := p } := by
  rcases issue_cases c s with ⟨hfault, he⟩ | ⟨hlive, ⟨e, herr⟩, he⟩ | ⟨_, i, t, hi, hexec, he⟩
  · exact ⟨_, he, issue_faulted hfault⟩
  · exact ⟨_, he, issue_illegal hlive (hdec ▸ herr)⟩
  · exact ⟨_, he, issue_decoded (hdec ▸ hi) (by rw [exec_withProgram i s p, hexec])⟩

/-- Settles O6: the decoder by `decode_congr` and `operandsOf_of_decode`, the step by `issue_withProgram`. -/
theorem unusedOperandWordsAreIgnored : Obligations.UnusedOperandWordsAreIgnored := by
  intro cmd a b a' b'
  refine ⟨fun hopb => decode_congr (fun _ => rfl) fun h => absurd h hopb, fun h1 h3 h11 h12 => ?_,
    fun idx w mn mx => operandsOf_of_decode, fun idx v => operandsOf_of_decode, fun w v => operandsOf_of_decode,
    fun idx v => operandsOf_of_decode, fun s t ht hs ht' ha hb => ?_⟩
  · have hopa : cmd.extractLsb' 0 8 ∉ ([0x01, 0x03, 0x11, 0x12] : List Byte) := by
      simp only [List.mem_cons, List.not_mem_nil, or_false, not_or]
      exact ⟨h1, h3, h11, h12⟩
    exact decode_congr (fun h => absurd h hopa) fun h => absurd h h1
  · obtain ⟨s', hs', hother⟩ := issue_withProgram (decode_congr ha hb) s t.program
    rw [← ht] at hother
    exact ⟨s', (step_command hs).trans hs', (step_command ht').trans hother⟩

end Sys2Proof.Machine
end

section
/-! The checksum commands in sequence, and the frame checksum (R62, R78, R81). -/

namespace Sys2Proof.Machine

/-- A faulted block ignores a whole sequence (R90). -/
theorem runInstrs_faulted {s : State} (hfault : s.fault = true) (is : List Instr) : runInstrs is s = .next s := by
  induction is with
  | nil => rfl
  | cons i is ih => rw [runInstrs_cons (by rw [exec_eq_runCommand, runCommand_faulted hfault]), ih]

/-! ## The checksum commands on an unfaulted block (R79 to R82) -/

theorem exec_csClr {s : State} (hlive : s.fault = false) : exec .csClr s = .next (s.setSum 0) :=
  runCommand_ok hlive _

theorem exec_csAdd {s : State} (hlive : s.fault = false) (b : Byte) :
    exec (.csAdd b) s = .next (s.setSum (s.csSum + b)) :=
  runCommand_ok hlive _

theorem exec_csRd {s : State} (hlive : s.fault = false) : exec .csRd s = .next (s.setRes (zextByte s.csSum)) :=
  runCommand_ok hlive _

theorem exec_csPk_sealed {s : State} (hlive : s.fault = false) (hsealed : s.pkDone = true) :
    exec .csPk s = .next (s.setSum (addPayload s.csSum s.pkBuf s.nBytes)) := by
  simp [exec_eq_runCommand, effect, hsealed, hlive]

theorem exec_csPk_open {s : State} (hlive : s.fault = false) (hopen : s.pkDone = false) :
    exec .csPk s = .next (s.takeFault .pkState) := by
  simp [exec_eq_runCommand, effect, hopen, hlive]

/-! ## Sequences of them -/

/-- CS.BYTES adds its bytes (R62, R80). -/
theorem runInstrs_csBytes (bytes : List Byte) {s : State} (hlive : s.fault = false) :
    runInstrs (csBytes bytes) s = .next (s.setSum (s.csSum + bytes.sum)) := by
  induction bytes generalizing s with
  | nil => simp [csBytes, runInstrs, State.setSum]
  | cons b bytes ih =>
    rw [csBytes, List.map_cons, runInstrs_cons (exec_csAdd hlive b), List.sum_cons, ← BitVec.add_assoc]
    exact ih hlive

/-- The bytes that every frame starts with (R62). -/
def frameStart : List Byte := [0xAA, 0xAF, 0x0F, 0xA1]

/-- CS.FRAME up to its CS.PK (R62). -/
theorem runInstrs_csFrame {s : State} (hlive : s.fault = false) (a m : Byte) :
    runInstrs (csFrame a m) s = runInstrs [.csPk, .csAdd a, .csAdd m, .csRd] (s.setSum frameStart.sum) :=
  calc runInstrs (csFrame a m) s
    _ = runInstrs (.csClr :: (csBytes frameStart ++ [.csPk, .csAdd a, .csAdd m, .csRd])) s := rfl
    _ = runInstrs (csBytes frameStart ++ [.csPk, .csAdd a, .csAdd m, .csRd]) (s.setSum 0) :=
      runInstrs_cons (exec_csClr hlive) _
    _ = runInstrs [.csPk, .csAdd a, .csAdd m, .csRd] ((s.setSum 0).setSum (0 + frameStart.sum)) :=
      runInstrs_append (runInstrs_csBytes frameStart (s := s.setSum 0) hlive) _
    _ = runInstrs [.csPk, .csAdd a, .csAdd m, .csRd] (s.setSum frameStart.sum) := rfl

/-- From its CS.PK on, CS.FRAME adds a sealed payload, the address and the mode, and reads the sum. -/
theorem runInstrs_csFrame_tail {s : State} (hlive : s.fault = false) (hsealed : s.pkDone = true) (a m : Byte) :
    ∃ sum : Byte, runInstrs [.csPk, .csAdd a, .csAdd m, .csRd] s = .next ((s.setSum sum).setRes (zextByte sum)) ∧
      sum = addPayload s.csSum s.pkBuf s.nBytes + a + m := by
  have hset (x : Byte) : (s.setSum x).fault = false := hlive
  refine ⟨_, ?_, rfl⟩
  calc runInstrs [.csPk, .csAdd a, .csAdd m, .csRd] s
    _ = runInstrs [.csAdd a, .csAdd m, .csRd] (s.setSum (addPayload s.csSum s.pkBuf s.nBytes)) :=
      runInstrs_cons (exec_csPk_sealed hlive hsealed) _
    _ = runInstrs [.csAdd m, .csRd] (s.setSum (addPayload s.csSum s.pkBuf s.nBytes + a)) :=
      runInstrs_cons (exec_csAdd (hset _) a) _
    _ = runInstrs [.csRd] (s.setSum (addPayload s.csSum s.pkBuf s.nBytes + a + m)) :=
      runInstrs_cons (exec_csAdd (hset _) m) _
    _ = .next ((s.setSum _).setRes (zextByte _)) := (runInstrs_singleton _ _).trans (exec_csRd (hset _))

/-- Settles O51: after the frame's first bytes, CS.PK adds the payload and the last commands address and mode, or CS.PK
faults and they are ignored. -/
theorem csFrameComputesTheFrameChecksum : Obligations.CsFrameComputesTheFrameChecksum := by
  intro s a m hlive
  rw [runInstrs_csFrame hlive]
  constructor
  · intro hsealed
    obtain ⟨sum, hrun, hsum⟩ := runInstrs_csFrame_tail (s := s.setSum frameStart.sum) hlive hsealed a m
    refine ⟨_, hrun, rfl, ?_, ?_⟩
    · have hstart : frameStart.sum.toNat = 0x09 := rfl
      simp only [State.setRes_csSum, State.setSum_csSum, hsum, BitVec.toNat_add, addPayload_toNat, hstart,
        State.nBytes, State.setSum_pkBits, State.setSum_pkBuf]
      omega
    · simp only [State.setRes_res, State.setRes_csSum, State.setSum_csSum, zextByte, BitVec.toNat_setWidth]
      omega
  · intro hopen
    have hpk := exec_csPk_open (s := s.setSum frameStart.sum) hlive hopen
    exact ⟨_, (runInstrs_cons hpk _).trans (runInstrs_faulted rfl _), rfl⟩

end Sys2Proof.Machine
end

section
/-! The quantizer's product in magnitudes (R63): over an admitted entry it is monotonic in the clamped value, so no code
is above the one at MAX (R66). -/

namespace Sys2Proof.Machine

/-! ## Finite patterns -/

theorem f64IsFinite_iff {a : F64} : f64IsFinite a = true ↔ f64Exp a < 2047 := by
  have : f64Exp a < 2 ^ 11 := (a.extractLsb' 52 11).isLt
  rw [f64IsFinite, bne_iff_ne]
  omega

theorem f64IsNaN_of_finite {a : F64} (h : f64IsFinite a = true) : f64IsNaN a = false := by
  simp [f64IsNaN, (f64IsFinite_iff.1 h).ne]

theorem f64IsInf_of_finite {a : F64} (h : f64IsFinite a = true) : f64IsInf a = false := by
  simp [f64IsInf, (f64IsFinite_iff.1 h).ne]

/-- A magnitude is below 2^(53+k) just if the exponent field is at most k + 1. -/
theorem f64Mag_lt_iff (a : F64) (k : Nat) : f64Mag a < 2 ^ 53 * 2 ^ k ↔ f64Exp a ≤ k + 1 := by
  have hfrac : f64Frac a < 2 ^ 52 := (a.extractLsb' 0 52).isLt
  have hunit : 1 ≤ 2 ^ k := Nat.one_le_two_pow
  unfold f64Mag
  split_ifs with hexp
  · exact iff_of_true (by omega) (by omega)
  · constructor
    · intro hmag
      by_contra hlt
      have hpow : 2 ^ (k + 1) ≤ 2 ^ (f64Exp a - 1) := Nat.pow_le_pow_right (by omega) (by omega)
      have hlow := Nat.mul_le_mul (show 2 ^ 52 ≤ 2 ^ 52 + f64Frac a by omega) hpow
      omega
    · intro hle
      calc (2 ^ 52 + f64Frac a) * 2 ^ (f64Exp a - 1) < 2 ^ 53 * 2 ^ (f64Exp a - 1) :=
            Nat.mul_lt_mul_of_pos_right (by omega) (Nat.two_pow_pos _)
        _ ≤ 2 ^ 53 * 2 ^ k := Nat.mul_le_mul_left _ (Nat.pow_le_pow_right (by omega) (by omega))

/-- A pattern of no greater magnitude than a finite one is finite. -/
theorem f64IsFinite_of_mag_le {a b : F64} (ha : f64IsFinite a = true) (h : f64Mag b ≤ f64Mag a) :
    f64IsFinite b = true := by
  rw [f64IsFinite_iff] at ha ⊢
  have := (f64Mag_lt_iff b (f64Exp a - 1)).1 (h.trans_lt ((f64Mag_lt_iff a (f64Exp a - 1)).2 (by omega)))
  omega

/-- A value is as far from 0 as its magnitude. -/
theorem f64Val_natAbs (a : F64) : (f64Val a).natAbs = f64Mag a := by
  unfold f64Val
  split_ifs <;> omega

/-- A pattern whose value lies between those of finite ones is finite. -/
theorem f64IsFinite_of_between {a b c : F64} (ha : f64IsFinite a = true) (hb : f64IsFinite b = true)
    (hac : f64Val a ≤ f64Val c) (hcb : f64Val c ≤ f64Val b) : f64IsFinite c = true := by
  have hmag : f64Mag c ≤ f64Mag a ∨ f64Mag c ≤ f64Mag b := by
    simp only [← f64Val_natAbs]
    omega
  exact hmag.elim (f64IsFinite_of_mag_le ha) (f64IsFinite_of_mag_le hb)

/-- The order of patterns that are no NaN is that of their values. -/
theorem f64Lt_iff {a b : F64} (ha : f64IsNaN a = false) (hb : f64IsNaN b = false) :
    f64Lt a b = true ↔ f64Val a < f64Val b := by
  simp [f64Lt, ha, hb]

/-- A pattern up to an infinity's is finite just if it is below it. -/
theorem f64IsFinite_pack_iff {neg : Bool} {m : Nat} (h : m ≤ 2047 * 2 ^ 52) :
    f64IsFinite (f64Pack neg m) = true ↔ m < 2047 * 2 ^ 52 := by
  rw [f64IsFinite_iff, f64Exp_pack neg m (by omega)]
  omega

/-- The sign does not enter the magnitude. -/
theorem f64Mag_pack_sign (neg neg' : Bool) {m : Nat} (h : m < 2 ^ 63) :
    f64Mag (f64Pack neg m) = f64Mag (f64Pack neg' m) := by
  simp only [f64Mag, f64Exp_pack _ m h, f64Frac_pack _ m h]

/-- The rounding of a finite pattern's magnitude gives its bits 62:0 back. -/
theorem f64RoundMag_f64Mag (neg : Bool) {m : Nat} (h : m < 2047 * 2 ^ 52) :
    f64RoundMag (f64Mag (f64Pack neg m)) 1 = m := by
  rw [← Nat.mul_one (f64Mag _), f64RoundMag_exact neg m 1 Nat.one_pos h]

/-- A finite pattern's magnitude grows with its bits 62:0. -/
theorem f64Mag_pack_mono (neg neg' : Bool) {m n : Nat} (h : m ≤ n) (hn : n < 2047 * 2 ^ 52) :
    f64Mag (f64Pack neg m) ≤ f64Mag (f64Pack neg' n) := by
  rw [f64Mag_pack_sign neg neg' (by omega)]
  by_contra hlt
  have hround := f64RoundMag_mono Nat.one_pos Nat.one_pos (Nat.mul_le_mul_right 1 (Nat.le_of_not_le hlt))
  rw [f64RoundMag_f64Mag neg' hn, f64RoundMag_f64Mag neg' (by omega)] at hround
  exact hlt (Nat.le_antisymm h hround ▸ le_rfl)

/-! ## The operations on finite patterns -/

/-- A difference that is not negative, rounded once; only a zero one can have sign 1 (R14). -/
theorem f64Sub_of_le {a b : F64} (ha : f64IsFinite a = true) (hb : f64IsFinite b = true) (h : f64Val b ≤ f64Val a) :
    ∃ neg, f64Sub a b = f64Pack neg (f64RoundMag (f64Val a - f64Val b).toNat 1) ∧
      (neg = true → f64Val a = f64Val b) := by
  simp only [f64Sub, f64IsNaN_of_finite ha, f64IsNaN_of_finite hb, f64IsInf_of_finite ha, f64IsInf_of_finite hb]
  rcases h.eq_or_lt with heq | hlt
  · refine ⟨f64Sign a && !f64Sign b, ?_, fun _ => heq.symm⟩
    rw [heq, Int.sub_self]
    rfl
  · refine ⟨false, ?_, nofun⟩
    have hpos : ¬ f64Val a - f64Val b = 0 := by omega
    have hneg : ¬ f64Val a - f64Val b < 0 := by omega
    have habs : (f64Val a - f64Val b).natAbs = (f64Val a - f64Val b).toNat := by omega
    simp [hpos, hneg, habs]

/-- A product of finite patterns, rounded once (R14). -/
theorem f64Mul_of_finite {a b : F64} (ha : f64IsFinite a = true) (hb : f64IsFinite b = true) :
    f64Mul a b = f64Pack (f64Sign a ^^ f64Sign b) (f64RoundMag (f64Mag a * f64Mag b) (2 ^ 1074)) := by
  simp only [f64Mul, f64IsNaN_of_finite ha, f64IsNaN_of_finite hb, f64IsInf_of_finite ha, f64IsInf_of_finite hb,
    Bool.or_self, Bool.false_eq_true, if_false]

theorem f64IsFinite_f64NaN (a b : F64) : f64IsFinite (f64NaN a b) = false := by
  have hexp : f64Exp (f64NaN a b) = 2047 := by
    simp only [f64Exp_eq, f64NaN, toNat_append_eq_add, BitVec.toNat_ofNat]
    omega
  simp [f64IsFinite, hexp]

/-- A quotient is a NaN or has the sign of its operands (R14). -/
theorem f64Div_cases (a b : F64) :
    f64Div a b = f64NaN a b ∨ ∃ m, f64Div a b = f64Pack (f64Sign a ^^ f64Sign b) m := by
  simp only [f64Div, f64Inf, f64Zero]
  split
  · exact .inl rfl
  split
  · split
    · exact .inl rfl
    · exact .inr ⟨_, rfl⟩
  split
  · exact .inr ⟨_, rfl⟩
  split
  · split
    · exact .inl rfl
    · exact .inr ⟨_, rfl⟩
  · exact .inr ⟨_, rfl⟩

/-- A finite quotient has the sign of its operands. -/
theorem f64Sign_f64Div {a b : F64} (h : f64IsFinite (f64Div a b) = true) :
    f64Sign (f64Div a b) = (f64Sign a ^^ f64Sign b) := by
  rcases f64Div_cases a b with he | ⟨m, he⟩ <;> rw [he] at h ⊢
  · simp [f64IsFinite_f64NaN] at h
  · exact f64Sign_pack _ _

/-! ## The product -/

/-- The bounds and the ratio of an entry that SPEC.WR admits (R68, R25). -/
theorem specAdmits_iff {width : Nat} {mn mx : F64} : specAdmits width mn mx = true ↔
    f64IsFinite mn = true ∧ f64IsFinite mx = true ∧ f64Val mn < f64Val mx ∧ f64IsFinite (specSpan mn mx) = true ∧
      f64IsFinite (specRatio width mn mx) = true := by
  simp only [specAdmits, Bool.and_eq_true, and_assoc]
  refine and_congr_right fun hmn => and_congr_right fun hmx => and_congr_left fun _ => ?_
  exact f64Lt_iff (f64IsNaN_of_finite hmn) (f64IsNaN_of_finite hmx)

/-- The clamped value is finite and within the bounds (R64). -/
theorem clamp_between {mn mx v : F64} (hmn : f64IsFinite mn = true) (hmx : f64IsFinite mx = true)
    (hlt : f64Val mn < f64Val mx) (hv : f64IsNaN v = false) :
    f64IsFinite (clamp mn mx v) = true ∧ f64Val mn ≤ f64Val (clamp mn mx v) ∧ f64Val (clamp mn mx v) ≤ f64Val mx := by
  have hbelow := f64Lt_iff hv (f64IsNaN_of_finite hmn)
  have habove := f64Lt_iff (f64IsNaN_of_finite hmx) hv
  unfold clamp f64Gt
  split_ifs with h1 h2
  · exact ⟨hmn, le_rfl, hlt.le⟩
  · exact ⟨hmx, hlt.le, le_rfl⟩
  · rw [hbelow, not_lt] at h1
    rw [habove, not_lt] at h2
    exact ⟨f64IsFinite_of_between hmn hmx h1 h2, h1, h2⟩

/-- MAX is its own clamped value. -/
theorem clamp_max {mn mx : F64} (hmn : f64IsFinite mn = true) (hmx : f64IsFinite mx = true)
    (hlt : f64Val mn < f64Val mx) : clamp mn mx mx = mx := by
  have hmn' := f64IsNaN_of_finite hmn
  have hmx' := f64IsNaN_of_finite hmx
  rw [clamp, f64Gt, if_neg (by rw [f64Lt_iff hmx' hmn']; omega), if_neg (by rw [f64Lt_iff hmx' hmx']; omega)]

/-- The ratio has sign 0, as the span of bounds in order has (R63). -/
theorem f64Sign_specRatio {width : Nat} {mn mx : F64} (h : specAdmits width mn mx = true) :
    f64Sign (specRatio width mn mx) = false := by
  obtain ⟨hmn, hmx, hlt, -, hratio⟩ := specAdmits_iff.1 h
  obtain ⟨neg, hspan, hneg⟩ := f64Sub_of_le hmx hmn hlt.le
  have hsign : neg = false := Bool.eq_false_iff.2 fun h => hlt.ne (hneg h).symm
  rw [specRatio, f64Sign_f64Div hratio, f64OfNat, specSpan, hspan, f64Sign_pack, f64Sign_pack, hsign]
  rfl

/-- Zero rounds to zero. -/
theorem f64RoundMag_zero {den : Nat} (h : 0 < den) : f64RoundMag 0 den = 0 := by
  simpa using f64RoundMag_small 0 den h (by omega)

/-- The bits 62:0 of the product p of R63. -/
def quantBits (e : SpecEntry) (v : F64) : Nat :=
  f64RoundMag (f64Mag (f64Sub (clamp e.min e.max v) e.min) * f64Mag (specRatio e.width.toNat e.min e.max)) (2 ^ 1074)

/-- The distance of a clamped value from MIN grows with the value, and is finite (R63, R25). -/
theorem f64Sub_min_mono {mn mx c c' : F64} (hmn : f64IsFinite mn = true) (hmx : f64IsFinite mx = true)
    (hspan : f64IsFinite (f64Sub mx mn) = true) (hc : f64IsFinite c = true) (hc' : f64IsFinite c' = true)
    (hlow : f64Val mn ≤ f64Val c) (hle : f64Val c ≤ f64Val c') (hhigh : f64Val c' ≤ f64Val mx) :
    f64IsFinite (f64Sub c mn) = true ∧ f64Mag (f64Sub c mn) ≤ f64Mag (f64Sub c' mn) := by
  obtain ⟨neg, hsub, -⟩ := f64Sub_of_le hc hmn hlow
  obtain ⟨neg', hsub', -⟩ := f64Sub_of_le hc' hmn (hlow.trans hle)
  obtain ⟨negx, hsubx, -⟩ := f64Sub_of_le hmx hmn (hlow.trans (hle.trans hhigh))
  have hround : f64RoundMag (f64Val c - f64Val mn).toNat 1 ≤ f64RoundMag (f64Val c' - f64Val mn).toNat 1 :=
    f64RoundMag_mono Nat.one_pos Nat.one_pos (by omega)
  have hround' : f64RoundMag (f64Val c' - f64Val mn).toNat 1 ≤ f64RoundMag (f64Val mx - f64Val mn).toNat 1 :=
    f64RoundMag_mono Nat.one_pos Nat.one_pos (by omega)
  have htop : f64RoundMag (f64Val mx - f64Val mn).toNat 1 < 2047 * 2 ^ 52 := by
    rwa [hsubx, f64IsFinite_pack_iff (f64RoundMag_le_inf _ _)] at hspan
  rw [hsub, hsub']
  exact ⟨f64IsFinite_pack _ _ (by omega), f64Mag_pack_mono _ _ hround (by omega)⟩

/-- The product is the pattern of `quantBits`; a sign of 1 is that of a zero only. -/
theorem quantProduct_eq {e : SpecEntry} {v : F64} (hadmits : specAdmits e.width.toNat e.min e.max = true)
    (hv : f64IsNaN v = false) :
    ∃ neg, quantProduct e v = f64Pack neg (quantBits e v) ∧ (neg = true → quantBits e v = 0) := by
  obtain ⟨hmn, hmx, hlt, hspan, hratio⟩ := specAdmits_iff.1 hadmits
  obtain ⟨hfin, hlow, hhigh⟩ := clamp_between hmn hmx hlt hv
  obtain ⟨hsubfin, -⟩ := f64Sub_min_mono hmn hmx hspan hfin hfin hlow le_rfl hhigh
  obtain ⟨neg, hsub, hneg⟩ := f64Sub_of_le hfin hmn hlow
  refine ⟨neg, ?_, fun h => ?_⟩
  · rw [quantProduct, f64Mul_of_finite hsubfin hratio, f64Sign_specRatio hadmits, Bool.xor_false, hsub, f64Sign_pack,
      ← hsub]
    rfl
  · have hzero : f64Mag (f64Sub (clamp e.min e.max v) e.min) = 0 := by
      rw [hsub, hneg h, Int.sub_self, Int.toNat_zero, f64RoundMag_zero Nat.one_pos, f64Mag_pack_small _ 0 (by omega)]
    rw [quantBits, hzero, Nat.zero_mul, f64RoundMag_zero (by positivity)]

/-- The product grows with the clamped value. -/
theorem quantBits_mono {e : SpecEntry} {v w : F64} (hadmits : specAdmits e.width.toNat e.min e.max = true)
    (hv : f64IsNaN v = false) (hw : f64IsNaN w = false)
    (hle : f64Val (clamp e.min e.max v) ≤ f64Val (clamp e.min e.max w)) : quantBits e v ≤ quantBits e w := by
  obtain ⟨hmn, hmx, hlt, hspan, -⟩ := specAdmits_iff.1 hadmits
  obtain ⟨hfin, hlow, -⟩ := clamp_between hmn hmx hlt hv
  obtain ⟨hfin', -, hhigh⟩ := clamp_between hmn hmx hlt hw
  obtain ⟨-, hmag⟩ := f64Sub_min_mono hmn hmx hspan hfin hfin' hlow hle hhigh
  have hunit : 0 < 2 ^ 1074 := by positivity
  exact f64RoundMag_mono hunit hunit (Nat.mul_le_mul_right _ (Nat.mul_le_mul_right _ hmag))

/-! ## The code -/

/-- `trunc` of a finite pattern that is not negative, by its bits 62:0. -/
theorem f64Trunc_pack {neg : Bool} {m : Nat} (hm : m < 2047 * 2 ^ 52) (hneg : neg = true → m = 0) :
    f64Trunc (f64Pack neg m) = f64Mag (f64Pack false m) / 2 ^ 1074 := by
  have hval : 0 ≤ f64Val (f64Pack neg m) := by
    cases neg with
    | false => rw [f64Val_pack_false]; omega
    | true => rw [hneg rfl]; decide
  rw [f64Trunc_eq (f64IsFinite_pack neg m hm) hval, f64Mag_pack_sign neg false (by omega)]

/-- No value's code is above the code at MAX, where the product at MAX is finite (R66). -/
theorem quantize_le_max {e : SpecEntry} {v : F64} (hvalid : e.valid = true)
    (hadmits : specAdmits e.width.toNat e.min e.max = true) (hv : f64IsNaN v = false)
    (hfin : f64IsFinite (quantProduct e e.max) = true) :
    ∃ q, quantize e v = .ok q ∧ q ≤ f64Trunc (quantProduct e e.max) := by
  obtain ⟨hmn, hmx, hlt, -, -⟩ := specAdmits_iff.1 hadmits
  have hmax := f64IsNaN_of_finite hmx
  have hle : quantBits e v ≤ quantBits e e.max := by
    refine quantBits_mono hadmits hv hmax ?_
    obtain ⟨-, -, hhigh⟩ := clamp_between hmn hmx hlt hv
    rwa [clamp_max hmn hmx hlt]
  obtain ⟨neg, hprod, hneg⟩ := quantProduct_eq hadmits hv
  obtain ⟨neg', hprod', hneg'⟩ := quantProduct_eq hadmits hmax
  rw [hprod', f64IsFinite_pack_iff (m := quantBits e e.max) (f64RoundMag_le_inf _ _)] at hfin
  refine ⟨f64Trunc (quantProduct e v), by simp [quantize, hvalid, hv], ?_⟩
  rw [hprod, hprod', f64Trunc_pack (by omega) hneg, f64Trunc_pack hfin hneg']
  exact Nat.div_le_div_right (f64Mag_pack_mono _ _ hle hfin)

end Sys2Proof.Machine
end

section
/-! PK.BUILD over the device table (R62, R77): each append puts its code below the ones before it in the
stream's number. -/

namespace Sys2Proof.Machine

/-- The codes of the device table fit their widths (R66, R26). -/
theorem quantize_reset_lt {idx : SpecIdx} (hidx : idx.val < 5) {v : F64} (hv : f64IsNaN v = false) :
    ∃ q, quantize (State.reset.entry idx) v = .ok q ∧ q < 2 ^ (State.reset.entry idx).width.toNat := by
  have hdevice : ∀ i : SpecIdx, i.val < 5 → (State.reset.entry i).valid = true ∧
      f64IsFinite (quantProduct (State.reset.entry i) (State.reset.entry i).max) = true ∧
      f64Trunc (quantProduct (State.reset.entry i) (State.reset.entry i).max) <
        2 ^ (State.reset.entry i).width.toNat := by decide +kernel
  obtain ⟨hvalid, hfin, htop⟩ := hdevice idx hidx
  obtain ⟨hok, -⟩ := reset_tableOk idx
  obtain ⟨q, hq, hle⟩ := quantize_le_max hvalid (hok hvalid).2 hv hfin
  exact ⟨q, hq, hle.trans_lt htop⟩

/-- PK.QAPP of a value whose code fits (R74). -/
theorem exec_pkQapp_ok {s : State} {idx : SpecIdx} {v : F64} {q : Nat} (hlive : s.fault = false)
    (hopen : s.pkDone = false) (hq : quantize (s.entry idx) v = .ok q) (hrange : q < 2 ^ (s.entry idx).width.toNat)
    (hfit : s.pkBits.toNat + (s.entry idx).width.toNat ≤ 256) :
    exec (.pkQapp idx v) s = .next ((s.appended (s.entry idx).width.toNat q).setRes (zextNat q)) := by
  have happend := appendField_eq_ok_iff.2 ⟨hopen, hrange, hfit, rfl⟩
  rw [exec_eq_runCommand, effect, hopen, hq]
  simp only [Bool.false_eq_true, if_false, Except.bind, happend, Except.map, runCommand_ok hlive]

/-- An unfaulted block over the device table with an open stream of a length and a number. -/
def Building (bits value : Nat) (s : State) : Prop :=
  s.fault = false ∧ s.spec = State.reset.spec ∧ s.pkDone = false ∧ s.pkBits.toNat = bits ∧ s.streamValue = value

/-- PK.CLR starts the building (R72). -/
theorem exec_pkClr_building {s : State} (hlive : s.fault = false) (hspec : s.spec = State.reset.spec) :
    ∃ t, exec .pkClr s = .next t ∧ Building 0 0 t := by
  refine ⟨_, runCommand_ok hlive _, hlive, hspec, rfl, rfl, ?_⟩
  exact Nat.div_eq_of_lt s.pkBuf.isLt

/-- A PK.QAPP over the device table appends its code (R74, R35). -/
theorem exec_pkQapp_building {s : State} {bits value : Nat} (hs : Building bits value s) (idx : SpecIdx)
    (hidx : idx.val < 5) {v : F64} (hv : f64IsNaN v = false)
    (hfit : bits + (State.reset.entry idx).width.toNat ≤ 256) :
    ∃ t q, exec (.pkQapp idx v) s = .next t ∧ quantize (State.reset.entry idx) v = .ok q ∧
      Building (bits + (State.reset.entry idx).width.toNat)
        (value * 2 ^ (State.reset.entry idx).width.toNat + q) t := by
  obtain ⟨hlive, hspec, hopen, rfl, rfl⟩ := hs
  have hentry : s.entry idx = State.reset.entry idx := by rw [State.entry, hspec, State.entry]
  obtain ⟨q, hq, hrange⟩ := quantize_reset_lt hidx hv
  rw [← hentry] at hq hrange hfit ⊢
  exact ⟨_, q, exec_pkQapp_ok hlive hopen hq hrange hfit, hq, hlive, hspec, hopen, State.appended_pkBits q hfit,
    State.appended_streamValue hfit hrange⟩

/-- Settles O47: five appends of 16 and four times 12 bits from the empty stream, and PK.FIN of the 64 bits. -/
theorem buildPacksTheDevicePayload : Obligations.BuildPacksTheDevicePayload := by
  intro s v0 v1 v2 v3 v4 hlive hspec hv
  simp only [List.forall_mem_cons] at hv
  obtain ⟨hv0, hv1, hv2, hv3, hv4, -⟩ := hv
  have hentry (idx : SpecIdx) : s.entry idx = State.reset.entry idx := by rw [State.entry, hspec, State.entry]
  obtain ⟨t, ht, hb⟩ := exec_pkClr_building hlive hspec
  obtain ⟨t0, q0, ht0, hq0, hb0⟩ := exec_pkQapp_building hb 0 (by decide) hv0 (by decide)
  obtain ⟨t1, q1, ht1, hq1, hb1⟩ := exec_pkQapp_building hb0 1 (by decide) hv1 (by decide)
  obtain ⟨t2, q2, ht2, hq2, hb2⟩ := exec_pkQapp_building hb1 2 (by decide) hv2 (by decide)
  obtain ⟨t3, q3, ht3, hq3, hb3⟩ := exec_pkQapp_building hb2 3 (by decide) hv3 (by decide)
  obtain ⟨t4, q4, ht4, hq4, hb4⟩ := exec_pkQapp_building hb3 4 (by decide) hv4 (by decide)
  obtain ⟨hlive4, -, -, hbits, hvalue⟩ := hb4
  have hlen : t4.pkBits.toNat = 64 := hbits
  have hrun : runInstrs (pkBuild v0 v1 v2 v3 v4) s = .next ((t4.setDone true).setRes (zextNat t4.nBytes)) := by
    rw [pkBuild, runInstrs_cons ht, runInstrs_cons ht0, runInstrs_cons ht1, runInstrs_cons ht2, runInstrs_cons ht3,
      runInstrs_cons ht4, runInstrs_singleton, exec_pkFin_aligned hlive4 (by rw [hlen])]
  simp only [hentry]
  refine ⟨_, q0, q1, q2, q3, q4, hrun, hq0, hq1, hq2, hq3, hq4, hlive4, rfl, hlen, ?_, ?_⟩
  · rw [State.setRes_res, zextNat_nBytes_toNat, hlen]
  · rw [Nat.zero_mul, Nat.zero_add] at hvalue
    exact hvalue

end Sys2Proof.Machine
end

section
/-! Assembled text: its lines, the instructions they stand for, and their encodings (R61, R62). -/

namespace Sys2Proof.Machine

/-! ## The instructions of a line -/

/-- Every instruction of a reading that succeeds has an encoding. -/
def YieldsWellFormed (r : Option (List Instr)) : Prop := ∀ is, r = some is → ∀ i ∈ is, i.WellFormed

theorem yieldsWellFormed_none : YieldsWellFormed none := nofun

theorem yieldsWellFormed_some {is : List Instr} (h : ∀ i ∈ is, i.WellFormed) : YieldsWellFormed (some is) := by
  rintro _ ⟨⟩
  exact h

theorem yieldsWellFormed_single {i : Instr} (h : i.WellFormed) : YieldsWellFormed (some [i]) :=
  yieldsWellFormed_some (List.forall_mem_singleton.2 h)

theorem yieldsWellFormed_ite {c : Prop} [Decidable c] {r r' : Option (List Instr)} (h : YieldsWellFormed r)
    (h' : YieldsWellFormed r') : YieldsWellFormed (if c then r else r') := by
  split <;> assumption

theorem yieldsWellFormed_bind {α : Type} {x : Option α} {f : α → Option (List Instr)}
    (h : ∀ a, x = some a → YieldsWellFormed (f a)) : YieldsWellFormed (x >>= f) := by
  cases x with
  | none => exact yieldsWellFormed_none
  | some a => exact h a rfl

/-- A width operand is in range as it is read (R61), and every other field by its type. -/
theorem assembleForm_wellFormed (m : List Char) (ops : List (List Char)) : YieldsWellFormed (assembleForm m ops) := by
  unfold assembleForm
  refine yieldsWellFormed_ite ?nop <| yieldsWellFormed_ite ?specWr <| yieldsWellFormed_ite ?specRd <|
    yieldsWellFormed_ite ?quant <| yieldsWellFormed_ite ?pkClr <| yieldsWellFormed_ite ?pkApp <|
    yieldsWellFormed_ite ?pkQapp <| yieldsWellFormed_ite ?pkFin <| yieldsWellFormed_ite ?pkRd <|
    yieldsWellFormed_ite ?csClr <| yieldsWellFormed_ite ?csAdd <| yieldsWellFormed_ite ?csPk <|
    yieldsWellFormed_ite ?csRd <| yieldsWellFormed_ite ?pkBuild <| yieldsWellFormed_ite ?csBytes <|
    yieldsWellFormed_ite ?csFrame yieldsWellFormed_none
  case nop | pkClr | pkFin | csClr | csPk | csRd =>
    split
    · exact yieldsWellFormed_single trivial
    · exact yieldsWellFormed_none
  case specWr =>
    split
    · exact yieldsWellFormed_bind fun _ _ => yieldsWellFormed_bind fun w hw => yieldsWellFormed_bind fun _ _ =>
        yieldsWellFormed_bind fun _ _ => yieldsWellFormed_single (readWidth_eq_some.1 hw).2
    · exact yieldsWellFormed_none
  case pkApp =>
    split
    · exact yieldsWellFormed_bind fun w hw => yieldsWellFormed_bind fun _ _ =>
        yieldsWellFormed_single (readWidth_eq_some.1 hw).2
    · exact yieldsWellFormed_none
  case specRd | quant | pkQapp =>
    split
    · exact yieldsWellFormed_bind fun _ _ => yieldsWellFormed_bind fun _ _ => yieldsWellFormed_single trivial
    · exact yieldsWellFormed_none
  case pkRd | csAdd =>
    split
    · exact yieldsWellFormed_bind fun _ _ => yieldsWellFormed_single trivial
    · exact yieldsWellFormed_none
  case pkBuild =>
    split
    · exact yieldsWellFormed_some (by simp [pkBuild, Instr.WellFormed])
    · exact yieldsWellFormed_none
  case csBytes =>
    refine yieldsWellFormed_ite yieldsWellFormed_none ?_
    rintro _ his
    obtain ⟨bytes, -, rfl⟩ := Option.map_eq_some_iff.1 his
    simp [csBytes]
  case csFrame =>
    split
    · exact yieldsWellFormed_bind fun _ _ => yieldsWellFormed_bind fun _ _ =>
        yieldsWellFormed_some (by simp [csFrame, csBytes, Instr.WellFormed])
    · exact yieldsWellFormed_none

theorem assembleLine_wellFormed {line : List Char} {is : List Instr} (h : assembleLine line = some is) :
    ∀ i ∈ is, i.WellFormed := by
  dsimp only [assembleLine] at h
  split at h
  · cases h
    simp
  · exact assembleForm_wellFormed _ _ is h

/-! ## The encodings of a text -/

/-- A command has no operand word that R56 does not give it (R61). -/
theorem encode_unused_operands (i : Instr) :
    ((encode i).opc ∉ ([0x01, 0x03, 0x11, 0x12] : List Byte) → (encode i).opa = 0) ∧
      ((encode i).opc ≠ 0x01 → (encode i).opb = 0) := by
  cases i <;> simp [encode]

/-- Lines without the separator are the pieces of their joined text. -/
theorem splitAtChar_intercalate {sep : Char} {lines : List (List Char)} (hne : lines ≠ [])
    (h : ∀ line ∈ lines, sep ∉ line) : splitAtChar sep (List.intercalate [sep] lines) = lines := by
  induction lines with
  | nil => contradiction
  | cons line rest ih =>
    rw [List.forall_mem_cons] at h
    cases rest with
    | nil => rw [List.intercalate_singleton, splitAtChar_plain h.1]
    | cons next rest =>
      rw [List.intercalate_cons_cons, List.append_assoc, List.singleton_append, splitAtChar_append _ h.1,
        ih (List.cons_ne_nil _ _) h.2]

/-- What a text assembles to: the encodings of what its lines stand for. -/
theorem assemble_eq_some_iff {text : List Char} {cs : List Command} : assemble text = some cs ↔
    ∃ parts, List.Forall₂ (fun line is => assembleLine line = some is) (splitAtChar '\n' text) parts ∧
      cs = parts.flatten.map encode := by
  simp only [assemble, Option.map_eq_some_iff, readAll_eq_some, eq_comm (a := cs)]

theorem flatten_wellFormed {lines : List (List Char)} {parts : List (List Instr)}
    (h : List.Forall₂ (fun line is => assembleLine line = some is) lines parts) :
    ∀ i ∈ parts.flatten, i.WellFormed := by
  induction h with
  | nil => simp
  | cons hline _ ih =>
    rw [List.flatten_cons, List.forall_mem_append]
    exact ⟨assembleLine_wellFormed hline, ih⟩

/-- Encodings decode to the instructions they are of. -/
theorem map_decode_encode {is : List Instr} (h : ∀ i ∈ is, i.WellFormed) : (is.map encode).map decode = is.map .ok := by
  rw [List.map_map]
  exact List.map_congr_left fun i hi => decodeOfEncodeIsTheInstruction i (h i hi)

/-- Settles O50: the text's pieces are its lines, and every instruction of a line has an encoding. -/
theorem assembledCommandsDecode : Obligations.AssembledCommandsDecode := by
  refine ⟨fun line is => assembleLine_wellFormed, fun text cs h c hc => ?_, fun lines cs hne hlines => ?_⟩
  · obtain ⟨parts, -, rfl⟩ := assemble_eq_some_iff.1 h
    obtain ⟨i, -, rfl⟩ := List.mem_map.1 hc
    exact encode_unused_operands i
  · rw [assemble_eq_some_iff, splitAtChar_intercalate hne hlines]
    refine ⟨Iff.rfl, ?_⟩
    rintro ⟨parts, hparts, rfl⟩
    exact ⟨parts, hparts, map_decode_encode (flatten_wellFormed hparts)⟩

end Sys2Proof.Machine
end

section
/-! The forms of R61 and the pseudo-commands of R62: which instructions a line of each stands for. -/

namespace Sys2Proof.Machine

/-! ## Readings of one operand, of two and of four -/

theorem read_one_iff {α : Type} {x : Option α} {f : α → List Instr} {is : List Instr} :
    (do return f (← x)) = some is ↔ ∃ a, x = some a ∧ is = f a := by
  simp [Option.bind_eq_some_iff, eq_comm (a := is)]

theorem read_two_iff {α β : Type} {x : Option α} {y : Option β} {f : α → β → List Instr} {is : List Instr} :
    (do return f (← x) (← y)) = some is ↔ ∃ a b, x = some a ∧ y = some b ∧ is = f a b := by
  simp [Option.bind_eq_some_iff, eq_comm (a := is)]

theorem read_four_iff {α β γ δ : Type} {x : Option α} {y : Option β} {z : Option γ} {u : Option δ}
    {f : α → β → γ → δ → List Instr} {is : List Instr} :
    (do return f (← x) (← y) (← z) (← u)) = some is ↔
      ∃ a b c d, x = some a ∧ y = some b ∧ z = some c ∧ u = some d ∧ is = f a b c d := by
  simp [Option.bind_eq_some_iff, eq_comm (a := is)]

/-! ## Lines of the forms -/

/-- The same check as a computable test, for the mnemonics. -/
def isOperandText (cs : List Char) : Bool := !cs.isEmpty && cs.all fun c => !isBlank c && c != ',' && c != ';'

theorem operandText_of {cs : List Char} (h : isOperandText cs = true) : OperandText cs := by
  simpa [isOperandText, and_assoc] using h

/-- A comment is skipped (R61). -/
theorem assembleLine_comment {line : List Char} (comment : List Char) (h : ';' ∉ line) :
    assembleLine (line ++ ';' :: comment) = assembleLine line := by
  have hline : ∀ c ∈ line, (c != ';') = true := fun c hc => bne_iff_ne.2 fun he => h (he ▸ hc)
  have hcut : (line ++ ';' :: comment).takeWhile (· != ';') = line.takeWhile (· != ';') := by
    rw [List.takeWhile_append_of_pos hline, List.takeWhile_eq_self_iff.2 hline]
    simp
  rw [assembleLine, hcut, assembleLine]

section
variable {a b c d : List Char} {is : List Instr}

theorem operandText_one (ha : OperandText a) : ∀ op ∈ [a], OperandText op := List.forall_mem_singleton.2 ha

theorem operandText_two (ha : OperandText a) (hb : OperandText b) : ∀ op ∈ [a, b], OperandText op :=
  List.forall_mem_cons.2 ⟨ha, operandText_one hb⟩

theorem operandText_four (ha : OperandText a) (hb : OperandText b) (hc : OperandText c) (hd : OperandText d) :
    ∀ op ∈ [a, b, c, d], OperandText op :=
  List.forall_mem_cons.2 ⟨ha, List.forall_mem_cons.2 ⟨hb, operandText_two hc hd⟩⟩

theorem assembleLine_pkRd (ha : OperandText a) : assembleLine (formLine "PK.RD".toList [a]) = some is ↔
    ∃ k : Byte, readNat a = some k.toNat ∧ is = [.pkRd k] := by
  rw [assembleLine_formLine (operandText_of rfl) (operandText_one ha)]
  simp only [← readByte_eq_some]
  exact read_one_iff

theorem assembleLine_csAdd (ha : OperandText a) : assembleLine (formLine "CS.ADD".toList [a]) = some is ↔
    ∃ b : Byte, readNat a = some b.toNat ∧ is = [.csAdd b] := by
  rw [assembleLine_formLine (operandText_of rfl) (operandText_one ha)]
  simp only [← readByte_eq_some]
  exact read_one_iff

theorem assembleLine_specRd (ha : OperandText a) (hb : OperandText b) :
    assembleLine (formLine "SPEC.RD".toList [a, b]) = some is ↔
      ∃ (idx : SpecIdx) (sel : Byte), readNat a = some idx.val ∧ readNat b = some sel.toNat ∧
        is = [.specRd idx sel] := by
  rw [assembleLine_formLine (operandText_of rfl) (operandText_two ha hb)]
  simp only [← readIdx_eq_some, ← readByte_eq_some]
  exact read_two_iff

theorem assembleLine_quant (ha : OperandText a) (hb : OperandText b) :
    assembleLine (formLine "QUANT".toList [a, b]) = some is ↔
      ∃ (idx : SpecIdx) (v : F64), readNat a = some idx.val ∧ readReal b = some v ∧ is = [.quant idx v] := by
  rw [assembleLine_formLine (operandText_of rfl) (operandText_two ha hb)]
  simp only [← readIdx_eq_some]
  exact read_two_iff

theorem assembleLine_pkQapp (ha : OperandText a) (hb : OperandText b) :
    assembleLine (formLine "PK.QAPP".toList [a, b]) = some is ↔
      ∃ (idx : SpecIdx) (v : F64), readNat a = some idx.val ∧ readReal b = some v ∧ is = [.pkQapp idx v] := by
  rw [assembleLine_formLine (operandText_of rfl) (operandText_two ha hb)]
  simp only [← readIdx_eq_some]
  exact read_two_iff

theorem assembleLine_pkApp (ha : OperandText a) (hb : OperandText b) :
    assembleLine (formLine "PK.APP".toList [a, b]) = some is ↔
      ∃ (w : Nat) (u : Word64), (readNat a = some w ∧ WidthOk w) ∧ readNat b = some u.toNat ∧ is = [.pkApp w u] := by
  rw [assembleLine_formLine (operandText_of rfl) (operandText_two ha hb)]
  simp only [← readWidth_eq_some, ← readU64_eq_some]
  exact read_two_iff

theorem assembleLine_specWr (ha : OperandText a) (hb : OperandText b) (hc : OperandText c) (hd : OperandText d) :
    assembleLine (formLine "SPEC.WR".toList [a, b, c, d]) = some is ↔
      ∃ (idx : SpecIdx) (w : Nat) (mn mx : F64), readNat a = some idx.val ∧ (readNat b = some w ∧ WidthOk w) ∧
        readReal c = some mn ∧ readReal d = some mx ∧ is = [.specWr idx w mn mx] := by
  rw [assembleLine_formLine (operandText_of rfl) (operandText_four ha hb hc hd)]
  simp only [← readIdx_eq_some, ← readWidth_eq_some]
  exact read_four_iff

theorem assembleLine_csFrame (ha : OperandText a) (hb : OperandText b) :
    assembleLine (formLine "CS.FRAME".toList [a, b]) = some is ↔
      ∃ addr mode : Byte, readNat a = some addr.toNat ∧ readNat b = some mode.toNat ∧ is = csFrame addr mode := by
  rw [assembleLine_formLine (operandText_of rfl) (operandText_two ha hb)]
  simp only [← readByte_eq_some]
  exact read_two_iff

end

theorem assembleLine_csBytes {ops : List (List Char)} {is : List Instr} (hne : ops ≠ [])
    (hops : ∀ op ∈ ops, OperandText op) : assembleLine (formLine "CS.BYTES".toList ops) = some is ↔
      ∃ bytes : List Byte, List.Forall₂ (fun op b => readNat op = some b.toNat) ops bytes ∧ is = csBytes bytes := by
  have hform : assembleForm "CS.BYTES".toList ops = (readAll readByte ops).map csBytes := by
    cases ops with
    | nil => contradiction
    | cons op ops => rfl
  rw [assembleLine_formLine (operandText_of rfl) hops, hform]
  simp only [← readByte_eq_some, ← readAll_eq_some, Option.map_eq_some_iff, eq_comm (a := is)]

/-- PK.BUILD takes exactly five values (R62). -/
theorem assembleForm_pkBuild_iff {ops : List (List Char)} {is : List Instr} :
    assembleForm "PK.BUILD".toList ops = some is ↔
      ∃ v0 v1 v2 v3 v4, readAll readReal ops = some [v0, v1, v2, v3, v4] ∧ is = pkBuild v0 v1 v2 v3 v4 := by
  have hform : assembleForm "PK.BUILD".toList ops =
      match readAll readReal ops with
      | some [v0, v1, v2, v3, v4] => some (pkBuild v0 v1 v2 v3 v4)
      | _ => none := rfl
  rw [hform]
  split
  case h_1 v0 v1 v2 v3 v4 hread => simp [hread, eq_comm (a := is)]
  case h_2 hread => exact iff_of_false nofun fun ⟨v0, v1, v2, v3, v4, hsome, _⟩ => hread v0 v1 v2 v3 v4 hsome

theorem assembleLine_pkBuild {a b c d e : List Char} {is : List Instr} (ha : OperandText a) (hb : OperandText b)
    (hc : OperandText c) (hd : OperandText d) (he : OperandText e) :
    assembleLine (formLine "PK.BUILD".toList [a, b, c, d, e]) = some is ↔
      ∃ v0 v1 v2 v3 v4 : F64, readReal a = some v0 ∧ readReal b = some v1 ∧ readReal c = some v2 ∧
        readReal d = some v3 ∧ readReal e = some v4 ∧ is = pkBuild v0 v1 v2 v3 v4 := by
  rw [assembleLine_formLine (operandText_of rfl) (List.forall_mem_cons.2 ⟨ha, operandText_four hb hc hd he⟩),
    assembleForm_pkBuild_iff]
  simp only [readAll_eq_some, List.forall₂_cons, List.forall₂_nil_left_iff, and_true, and_assoc]

/-- Settles O52, form by form; the forms without operands and the empty line are run. -/
theorem assemblerFormsStandForTheirInstructions : Obligations.AssemblerFormsStandForTheirInstructions := by
  refine ⟨rfl, rfl, rfl, rfl, rfl, rfl, rfl, fun line comment => assembleLine_comment comment, fun a is ha => ?_,
    fun a b is ha hb => ?_, fun a b c d is ha hb hc hd => ?_⟩
  · exact ⟨assembleLine_pkRd ha, assembleLine_csAdd ha⟩
  · refine ⟨assembleLine_specRd ha hb, assembleLine_quant ha hb, assembleLine_pkQapp ha hb, ?_⟩
    simpa only [WidthOk, Config.wMax, and_assoc] using assembleLine_pkApp ha hb
  · simpa only [WidthOk, Config.wMax, and_assoc] using assembleLine_specWr ha hb hc hd

/-- Settles O53: `pkBuild`, `csBytes` and `csFrame` are R62's lists of commands. -/
theorem pseudoCommandsExpand : Obligations.PseudoCommandsExpand :=
  ⟨fun _ _ _ _ _ _ => assembleLine_pkBuild, fun _ _ => assembleLine_csBytes, fun _ _ _ => assembleLine_csFrame⟩

end Sys2Proof.Machine
end

section
/-! The literals of R61: digit texts are read back as their numbers, and a decimal number as the rounding of its
value. -/

namespace Sys2Proof.Machine

/-! ## Digits -/

/-- The leading digit and the rest. -/
theorem digitText_succ (base k n : Nat) :
    digitText base (k + 1) n = Nat.digitChar (n / base ^ k % base) :: digitText base k n := by
  rw [digitText, List.range_succ_eq_map, List.map_cons, List.map_map, digitText]
  refine congrArg₂ List.cons (by simp) (List.map_congr_left fun j _ => ?_)
  rw [Function.comp_apply, show k + 1 - 1 - j.succ = k - 1 - j by omega]

@[simp] theorem digitText_length (base k n : Nat) : (digitText base k n).length = k := by
  simp [digitText]

theorem digitText_ne_nil {base k : Nat} (n : Nat) (h : 0 < k) : digitText base k n ≠ [] :=
  List.ne_nil_of_length_pos (by rwa [digitText_length])

/-- No other character stands in a text of decimal digits. -/
theorem not_mem_digitText {c : Char} (hc : ∀ d < 10, Nat.digitChar d ≠ c) (k n : Nat) : c ∉ digitText 10 k n := by
  intro hmem
  obtain ⟨j, -, hj⟩ := List.mem_map.1 hmem
  exact hc _ (Nat.mod_lt _ (by omega)) hj

theorem digitValue_digitChar : ∀ d < 16, digitValue (Nat.digitChar d) = some d := by decide

/-- The digits of a number are read on after a value. -/
theorem readDigits_digitText {base : Nat} (hpos : 0 < base) (hbase : base ≤ 16) (acc k n : Nat) :
    readDigits base acc (digitText base k n) = some (acc * base ^ k + n % base ^ k) := by
  induction k generalizing acc with
  | zero => simp [digitText, readDigits, Nat.mod_one]
  | succ k ih =>
    have hd : n / base ^ k % base < base := Nat.mod_lt _ hpos
    simp only [digitText_succ, readDigits, digitValue_digitChar _ (hd.trans_le hbase), if_pos hd, ih, Nat.mod_pow_succ,
      Option.some.injEq]
    ring

theorem readDigits_append (base acc : Nat) (a b : List Char) :
    readDigits base acc (a ++ b) = (readDigits base acc a).bind fun acc' => readDigits base acc' b := by
  induction a generalizing acc with
  | nil => rfl
  | cons c cs ih =>
    simp only [List.cons_append, readDigits]
    cases digitValue c with
    | none => rfl
    | some d =>
      dsimp only
      split_ifs
      · exact ih _
      · rfl

theorem readNumber_of_ne_nil {base : Nat} {cs : List Char} (h : cs ≠ []) :
    readNumber base cs = readDigits base 0 cs := by
  simp [readNumber, h]

/-- A number's digits read as the number. -/
theorem readNumber_digitText {base k n : Nat} (hbase : base = 10 ∨ base = 16) (hk : 0 < k) (hn : n < base ^ k) :
    readNumber base (digitText base k n) = some n := by
  rw [readNumber_of_ne_nil (digitText_ne_nil n hk), readDigits_digitText (by omega) (by omega), Nat.zero_mul,
    Nat.zero_add, Nat.mod_eq_of_lt hn]

/-- Digits after digits read as the number they make together. -/
theorem readNumber_digitText_append {k n j f : Nat} (hk : 0 < k) (hn : n < 10 ^ k) (hf : f < 10 ^ j) :
    readNumber 10 (digitText 10 k n ++ digitText 10 j f) = some (n * 10 ^ j + f) := by
  rw [readNumber_of_ne_nil (List.append_ne_nil_of_left_ne_nil (digitText_ne_nil n hk) _), readDigits_append,
    readDigits_digitText (by omega) (by omega), Option.bind_some, readDigits_digitText (by omega) (by omega),
    Nat.zero_mul, Nat.zero_add, Nat.mod_eq_of_lt hn, Nat.mod_eq_of_lt hf]

/-! ## Integers -/

/-- A text without an x is read as decimal (R61). -/
theorem readNat_decimal {cs : List Char} (h : 'x' ∉ cs) : readNat cs = readNumber 10 cs := by
  unfold readNat
  split
  · simp at h
  · rfl

/-! ## Real numbers -/

/-- A text that begins with a digit is an unsigned decimal number. -/
theorem readReal_digitText {k : Nat} (hk : 0 < k) (n : Nat) (rest : List Char) :
    readReal (digitText 10 k n ++ rest) =
      (readScaled (digitText 10 k n ++ rest)).map fun p => f64OfDecimal false p.1 p.2 := by
  have hdigit : ∀ d < 10, Nat.digitChar d ≠ 'f' ∧ Nat.digitChar d ≠ '-' ∧ Nat.digitChar d ≠ '+' := by decide
  obtain ⟨k, rfl⟩ := Nat.exists_eq_add_of_le' hk
  obtain ⟨hf, hminus, hplus⟩ := hdigit (n / 10 ^ k % 10) (Nat.mod_lt _ (by omega))
  rw [digitText_succ, List.cons_append]
  unfold readReal
  split
  case h_1 hcons => exact absurd (List.cons.inj hcons).1 hf
  case h_2 hcons => exact absurd (List.cons.inj hcons).1 hminus
  case h_3 hcons => exact absurd (List.cons.inj hcons).1 hplus
  case h_4 => rfl

theorem readReal_minus (cs : List Char) :
    readReal ('-' :: cs) = (readScaled cs).map fun p => f64OfDecimal true p.1 p.2 := rfl

/-- Digits without a point are a mantissa of exponent 0. -/
theorem readScaled_integer {k n : Nat} (hk : 0 < k) (hn : n < 10 ^ k) :
    readScaled (digitText 10 k n) = some (n, 0) := by
  have he : 'e' ∉ digitText 10 k n := not_mem_digitText (by decide) k n
  have hdot : '.' ∉ digitText 10 k n := not_mem_digitText (by decide) k n
  simp only [readScaled, splitAtChar_plain he, readScaled.readMantissa, splitAtChar_plain hdot,
    readNumber_digitText (.inl rfl) hk hn, Option.map_some]

/-- The digits after the point count into the exponent. -/
theorem readScaled_fraction {k n j f : Nat} (hk : 0 < k) (hn : n < 10 ^ k) (hj : 0 < j) (hf : f < 10 ^ j) :
    readScaled (digitText 10 k n ++ '.' :: digitText 10 j f) = some (n * 10 ^ j + f, 0 - (j : Int)) := by
  have hdot (k n : Nat) : '.' ∉ digitText 10 k n := not_mem_digitText (by decide) k n
  have he : 'e' ∉ digitText 10 k n ++ '.' :: digitText 10 j f := by
    simp only [List.mem_append, List.mem_cons, not_or]
    exact ⟨not_mem_digitText (by decide) k n, by decide, not_mem_digitText (by decide) j f⟩
  simp only [readScaled, splitAtChar_plain he, readScaled.readMantissa, splitAtChar_append _ (hdot k n),
    splitAtChar_plain (hdot j f), List.isEmpty_eq_false_iff.2 (digitText_ne_nil n hk),
    List.isEmpty_eq_false_iff.2 (digitText_ne_nil f hj), Bool.or_self, Bool.false_eq_true, if_false,
    readNumber_digitText_append hk hn hf, Option.map_some, digitText_length]

/-- The rounding of an integer's exact value (R14). -/
theorem f64OfDecimal_integer (neg : Bool) (m : Nat) :
    f64OfDecimal neg m 0 = f64Pack neg (f64RoundMag (m * 2 ^ 1074) 1) := by
  rw [f64OfDecimal, if_pos le_rfl, Int.toNat_zero, pow_zero, Nat.mul_one]

/-- The rounding of a fraction's exact value (R14). -/
theorem f64OfDecimal_fraction (neg : Bool) (m : Nat) {j : Nat} (hj : 0 < j) :
    f64OfDecimal neg m (0 - (j : Int)) = f64Pack neg (f64RoundMag (m * 2 ^ 1074) (10 ^ j)) := by
  rw [f64OfDecimal, if_neg (by omega), show (-(0 - (j : Int))).toNat = j by omega]

/-- Raw bits are read as given (R61). -/
theorem readReal_raw (v : F64) : readReal ("f64:0x".toList ++ digitText 16 16 v.toNat) = some v := by
  have hraw (cs : List Char) : readReal ("f64:0x".toList ++ cs) =
      if cs.length = 16 then (readNumber 16 cs).map (BitVec.ofNat 64) else none := rfl
  rw [hraw, if_pos (digitText_length 16 16 _), readNumber_digitText (.inr rfl) (by omega) (by have := v.isLt; omega),
    Option.map_some, BitVec.ofNat_toNat, BitVec.setWidth_eq]

/-- Settles O54: the digits by `readDigits_digitText`, the decimal numbers by their mantissa and exponent. -/
theorem literalsHaveTheirValues : Obligations.LiteralsHaveTheirValues := by
  refine ⟨fun k n hk hn => ?_, fun k n hk hn => readNumber_digitText (.inr rfl) hk hn, readReal_raw,
    fun k n hk hn => ?_, fun k n j f hk hn hj hf => ?_⟩
  · rw [readNat_decimal (not_mem_digitText (by decide) k n), readNumber_digitText (.inl rfl) hk hn]
  · have hunsigned := readReal_digitText hk n []
    rw [List.append_nil] at hunsigned
    simp only [hunsigned, readReal_minus, readScaled_integer hk hn, Option.map_some, f64OfDecimal_integer, and_self]
  · simp only [readReal_digitText hk, readReal_minus, readScaled_fraction hk hn hj hf, Option.map_some,
      f64OfDecimal_fraction _ _ hj, and_self]

end Sys2Proof.Machine
end

section
/-! The code over an admitted entry (R63 to R67): it is monotonic in the value, 0 at MIN, and at MAX the top code or one
below, which bounds every other. -/

namespace Sys2Proof.Machine

/-! ## The clamp -/

section
variable {mn mx : F64}

theorem clamp_of_lt {v : F64} (h : f64Lt v mn = true) : clamp mn mx v = mn := if_pos h

theorem clamp_of_between {v : F64} (h : f64Lt v mn = false) (h' : f64Gt v mx = false) : clamp mn mx v = v := by
  rw [clamp, h, h', if_neg Bool.false_ne_true, if_neg Bool.false_ne_true]

/-- MIN is its own clamped value. -/
theorem clamp_min (hmn : f64IsFinite mn = true) (hmx : f64IsFinite mx = true) (hlt : f64Val mn < f64Val mx) :
    clamp mn mx mn = mn := by
  have hmn' := f64IsNaN_of_finite hmn
  have hmx' := f64IsNaN_of_finite hmx
  refine clamp_of_between ?_ ?_
  · rw [← Bool.not_eq_true, f64Lt_iff hmn' hmn']; omega
  · rw [f64Gt, ← Bool.not_eq_true, f64Lt_iff hmx' hmn']; omega

/-- Above MAX the clamp gives MAX: with MIN < MAX such a value is not below MIN. -/
theorem clamp_of_gt (hmn : f64IsFinite mn = true) (hmx : f64IsFinite mx = true) (hlt : f64Val mn < f64Val mx)
    {v : F64} (hv : f64IsNaN v = false) (h : f64Gt v mx = true) : clamp mn mx v = mx := by
  have habove := (f64Lt_iff (f64IsNaN_of_finite hmx) hv).1 h
  rw [clamp, if_neg (by rw [f64Lt_iff hv (f64IsNaN_of_finite hmn)]; omega), if_pos h]

/-- The value of the clamped value (R63). -/
theorem f64Val_clamp (hmn : f64IsFinite mn = true) (hmx : f64IsFinite mx = true) (hlt : f64Val mn < f64Val mx)
    {v : F64} (hv : f64IsNaN v = false) : f64Val (clamp mn mx v) = max (f64Val mn) (min (f64Val v) (f64Val mx)) := by
  have hbelow := f64Lt_iff hv (f64IsNaN_of_finite hmn)
  have habove := f64Lt_iff (f64IsNaN_of_finite hmx) hv
  unfold clamp f64Gt
  split_ifs with h1 h2
  · rw [hbelow] at h1; omega
  · rw [habove] at h2; omega
  · rw [hbelow] at h1; rw [habove] at h2; omega

/-- Clamping keeps the order of values (R67). -/
theorem clamp_mono (hmn : f64IsFinite mn = true) (hmx : f64IsFinite mx = true) (hlt : f64Val mn < f64Val mx)
    {v w : F64} (hv : f64IsNaN v = false) (hw : f64IsNaN w = false) (hle : f64Val v ≤ f64Val w) :
    f64Val (clamp mn mx v) ≤ f64Val (clamp mn mx w) := by
  rw [f64Val_clamp hmn hmx hlt hv, f64Val_clamp hmn hmx hlt hw]
  exact max_le_max_left _ (min_le_min_right _ hle)

/-- The clamped value is in bounds, where clamping changes nothing (R67). -/
theorem clamp_clamp (hmn : f64IsFinite mn = true) (hmx : f64IsFinite mx = true) (hlt : f64Val mn < f64Val mx)
    {v : F64} (hv : f64IsNaN v = false) : clamp mn mx (clamp mn mx v) = clamp mn mx v := by
  obtain ⟨hfin, hlow, hhigh⟩ := clamp_between hmn hmx hlt hv
  have hc := f64IsNaN_of_finite hfin
  refine clamp_of_between ?_ ?_
  · rw [← Bool.not_eq_true, f64Lt_iff hc (f64IsNaN_of_finite hmn)]; omega
  · rw [f64Gt, ← Bool.not_eq_true, f64Lt_iff (f64IsNaN_of_finite hmx) hc]; omega

end

/-- The infinities lie outside every finite value. -/
theorem f64Val_between_inf {a : F64} (h : f64IsFinite a = true) :
    f64Val 0xFFF0000000000000 < f64Val a ∧ f64Val a < f64Val 0x7FF0000000000000 := by
  have hneg : f64Val 0xFFF0000000000000 = -(2 ^ 53 * 2 ^ 2045 : Nat) := by decide +kernel
  have hpos : f64Val 0x7FF0000000000000 = (2 ^ 53 * 2 ^ 2045 : Nat) := by decide +kernel
  have hmag : f64Mag a < 2 ^ 53 * 2 ^ 2045 := (f64Mag_lt_iff a 2045).2 (by have := f64IsFinite_iff.1 h; omega)
  rw [hneg, hpos, ← f64Val_natAbs] at *
  generalize 2 ^ 53 * 2 ^ 2045 = top at hmag
  omega

/-! ## The product at MAX -/

/-- The error of a finite rounding is at most half a unit of its last place. -/
theorem f64RoundMag_error {num den : Nat} (h : 0 < den) (hfin : f64RoundMag num den < 2047 * 2 ^ 52) :
    2 * |(f64Mag (f64Pack false (f64RoundMag num den)) : Int) * den - num| ≤ (den * 2 ^ f64Shift num den : Nat) := by
  rw [f64Mag_f64RoundMag false h hfin, Nat.cast_mul, Int.mul_assoc, Int.mul_comm ((2 ^ _ : Nat) : Int),
    ← Nat.cast_mul den]
  exact (roundHalfEven_error num _ (Nat.mul_pos h (Nat.two_pow_pos _))).1

/-- A unit of the last place is at most x / 2, where the divisor is and the exact value is below 2^51 times x. -/
theorem two_mul_lastPlace_le {num den x : Nat} (hden : 2 * den ≤ x) (hnum : num < 2 ^ 51 * x) :
    2 * (den * 2 ^ f64Shift num den) ≤ x := by
  rcases Nat.eq_zero_or_pos (f64Shift num den) with hk | hk
  · rwa [hk, Nat.pow_zero, Nat.mul_one]
  · have hlead := f64Shift_leading_le hk
    omega

/-- A quotient that differs from a magnitude by at most den / 4 rounds to one that differs from it by at most den / 2: the
rounding goes no farther than that magnitude. -/
theorem f64RoundMag_near {num den : Nat} (h : 0 < den) (hfin : f64RoundMag num den < 2047 * 2 ^ 52) {a : F64}
    (hnear : 4 * |(num : Int) - f64Mag a * den| ≤ den * den) :
    2 * |(f64Mag (f64Pack false (f64RoundMag num den)) : Int) - f64Mag a| ≤ den := by
  obtain ⟨hle, -⟩ := f64RoundMag_nearest h hfin a
  generalize (f64Mag (f64Pack false (f64RoundMag num den)) : Int) = p at hle ⊢
  have htri := abs_sub_le (p * den) num (f64Mag a * den)
  rw [abs_sub_comm (f64Mag a * den : Int)] at hle
  refine le_of_mul_le_mul_right ?_ (Int.natCast_pos.2 h)
  calc 2 * |p - f64Mag a| * den = 2 * |p * den - f64Mag a * den| := by
        rw [← Int.sub_mul, abs_mul, Nat.abs_cast, Int.mul_assoc]
    _ ≤ den * den := by linarith

/-- A finite quotient of a finite pattern by a finite one, rounded once: the divisor is not 0 (R14). -/
theorem f64Div_of_finite {a b : F64} (ha : f64IsFinite a = true) (hb : f64IsFinite b = true)
    (h : f64IsFinite (f64Div a b) = true) : 0 < f64Mag b ∧
      f64Div a b = f64Pack (f64Sign a ^^ f64Sign b) (f64RoundMag (f64Mag a * 2 ^ 1074) (f64Mag b)) := by
  have hinf (neg : Bool) : f64IsFinite (f64Inf neg) = false := by cases neg <;> rfl
  simp only [f64Div, f64IsNaN_of_finite ha, f64IsNaN_of_finite hb, f64IsInf_of_finite ha, f64IsInf_of_finite hb,
    Bool.or_self, Bool.false_eq_true, if_false] at h ⊢
  split_ifs at h ⊢ with hzero hnum
  · rw [f64IsFinite_f64NaN] at h; cases h
  · rw [hinf] at h; cases h
  · exact ⟨Nat.pos_of_ne_zero hzero, rfl⟩

/-- The top code n is at least 1, and small against the 53 bits of a significand (R63, R66). -/
theorem maxCode_bounds {width : Nat} (h : WidthOk width) : 1 ≤ maxCode width ∧ maxCode width < 2 ^ 32 := by
  obtain ⟨hlow, hhigh⟩ := h
  have h1 : 2 ^ 1 ≤ 2 ^ width := Nat.pow_le_pow_right (by omega) hlow
  have h2 : 2 ^ width ≤ 2 ^ 32 := Nat.pow_le_pow_right (by omega) hhigh
  unfold maxCode
  omega

theorem f64Mag_f64OfNat {n : Nat} (hn : n < 2 ^ 53) : f64Mag (f64OfNat n) = n * 2 ^ 1074 := by
  obtain ⟨-, hval⟩ := f64OfNat_exact hn
  refine Int.ofNat_inj.1 ?_
  rw [f64OfNat, ← f64Val_pack_false, ← f64OfNat, hval, Nat.cast_mul, Nat.cast_pow, Nat.cast_ofNat]

/-- The span times the ratio, before that product is rounded, differs from the top code n by at most 1/4 (R66). -/
theorem span_mul_ratio_near {width : Nat} {mn mx : F64} (hw : WidthOk width) (h : specAdmits width mn mx = true) :
    4 * |((f64Mag (specSpan mn mx) * f64Mag (specRatio width mn mx) : Nat) : Int)
      - f64Mag (f64OfNat (maxCode width)) * (2 ^ 1074 : Nat)| ≤ (2 ^ 1074 : Nat) * (2 ^ 1074 : Nat) := by
  obtain ⟨-, -, -, hspan, hratio⟩ := specAdmits_iff.1 h
  obtain ⟨-, hn⟩ := maxCode_bounds hw
  have hmag := f64Mag_f64OfNat (show maxCode width < 2 ^ 53 by omega)
  obtain ⟨hnfin, -⟩ := f64OfNat_exact (show maxCode width < 2 ^ 53 by omega)
  rw [specRatio] at hratio ⊢
  obtain ⟨hpos, hdiv⟩ := f64Div_of_finite hnfin hspan hratio
  rw [hdiv, f64IsFinite_pack_iff (f64RoundMag_le_inf _ _)] at hratio
  have hden : 2 * f64Mag (specSpan mn mx) ≤ 2 ^ 1074 * 2 ^ 1074 := by
    have hlt := (f64Mag_lt_iff (specSpan mn mx) 2045).2 (by have := f64IsFinite_iff.1 hspan; omega)
    have hpow : 2 * (2 ^ 53 * 2 ^ 2045) ≤ 2 ^ 1074 * 2 ^ 1074 := by decide +kernel
    exact (Nat.mul_le_mul_left 2 hlt.le).trans hpow
  have hnum : f64Mag (f64OfNat (maxCode width)) * 2 ^ 1074 < 2 ^ 51 * (2 ^ 1074 * 2 ^ 1074) := by
    rw [hmag, Nat.mul_assoc]
    exact Nat.mul_lt_mul_of_pos_right (by omega) (by positivity)
  have herr := f64RoundMag_error hpos hratio
  have hulp := two_mul_lastPlace_le hden hnum
  rw [hdiv, f64Mag_pack_sign _ false (by omega), Nat.mul_comm, ← Nat.cast_mul (f64Mag _), ← Nat.cast_mul (2 ^ 1074)]
  generalize 2 ^ 1074 * 2 ^ 1074 = x at hulp ⊢
  rw [Nat.cast_mul]
  omega

/-- At MAX the product is finite and differs from the top code n by at most 1/2 (R66, R67). -/
theorem quantBits_max_near {e : SpecEntry} (hw : WidthOk e.width.toNat)
    (h : specAdmits e.width.toNat e.min e.max = true) :
    quantBits e e.max < 2047 * 2 ^ 52 ∧
      2 * |(f64Mag (f64Pack false (quantBits e e.max)) : Int) - f64Mag (f64OfNat (maxCode e.width.toNat))|
        ≤ (2 ^ 1074 : Nat) := by
  obtain ⟨hmn, hmx, hlt, -⟩ := specAdmits_iff.1 h
  obtain ⟨-, hn⟩ := maxCode_bounds hw
  have hunit : 0 < 2 ^ 1074 := by positivity
  have hnear := span_mul_ratio_near hw h
  rw [quantBits, clamp_max hmn hmx hlt, ← specSpan]
  have hfin : f64RoundMag (f64Mag (specSpan e.min e.max) * f64Mag (specRatio e.width.toNat e.min e.max)) (2 ^ 1074)
      < 2047 * 2 ^ 52 := by
    obtain ⟨m, hm, hmag⟩ := exists_f64Mag_eq_nat (show maxCode e.width.toNat + 1 < 2 ^ 53 by omega)
    refine lt_of_le_of_lt (?_ : _ ≤ m) hm
    rw [← f64RoundMag_f64Mag false hm, hmag]
    refine f64RoundMag_mono hunit Nat.one_pos ?_
    rw [f64Mag_f64OfNat (by omega)] at hnear
    generalize 2 ^ 1074 = u at hunit hnear ⊢
    have hle := le_abs_self
      (((f64Mag (specSpan e.min e.max) * f64Mag (specRatio e.width.toNat e.min e.max) : Nat) : Int)
        - (maxCode e.width.toNat * u : Nat) * u)
    zify at hle hnear ⊢
    nlinarith
  exact ⟨hfin, f64RoundMag_near hunit hfin hnear⟩

/-! ## The code -/

section
variable {e : SpecEntry} {v w : F64}

/-- No value's product is above the one at MAX, which is finite (R66). -/
theorem quantBits_lt_inf (hwidth : WidthOk e.width.toNat) (h : specAdmits e.width.toNat e.min e.max = true)
    (hv : f64IsNaN v = false) : quantBits e v < 2047 * 2 ^ 52 := by
  obtain ⟨hmn, hmx, hlt, -⟩ := specAdmits_iff.1 h
  obtain ⟨hmax, -⟩ := quantBits_max_near hwidth h
  refine (quantBits_mono h hv (f64IsNaN_of_finite hmx) ?_).trans_lt hmax
  obtain ⟨-, -, hhigh⟩ := clamp_between hmn hmx hlt hv
  rwa [clamp_max hmn hmx hlt]

/-- The product is finite and not negative, its value the magnitude of `quantBits` (R65, R66). -/
theorem f64Val_quantProduct (hwidth : WidthOk e.width.toNat) (h : specAdmits e.width.toNat e.min e.max = true)
    (hv : f64IsNaN v = false) : f64IsFinite (quantProduct e v) = true ∧
      f64Val (quantProduct e v) = f64Mag (f64Pack false (quantBits e v)) := by
  obtain ⟨neg, hprod, hneg⟩ := quantProduct_eq h hv
  rw [hprod]
  refine ⟨f64IsFinite_pack _ _ (quantBits_lt_inf hwidth h hv), ?_⟩
  cases neg with
  | false => exact f64Val_pack_false _
  | true => rw [hneg rfl]; rfl

theorem quantize_eq_ok_iff {q : Nat} : quantize e v = .ok q ↔
    e.valid = true ∧ f64IsNaN v = false ∧ f64Trunc (quantProduct e v) = q := by
  rcases quantize_cases e v with ⟨hvalid, he⟩ | ⟨-, hnan, he⟩ | ⟨hvalid, hv, he⟩ <;> rw [he] <;> simp [*]

/-- A valid entry's code of a value that is no NaN is the truncated product. -/
theorem quantize_eq_ok (hvalid : e.valid = true) (hv : f64IsNaN v = false) :
    quantize e v = .ok (f64Trunc (quantProduct e v)) := quantize_eq_ok_iff.2 ⟨hvalid, hv, rfl⟩

/-- Values of one clamped value have one code (R67). -/
theorem quantize_congr (hv : f64IsNaN v = false) (hw : f64IsNaN w = false)
    (h : clamp e.min e.max v = clamp e.min e.max w) : quantize e v = quantize e w := by
  rw [quantize, quantize, hv, hw, quantProduct, quantProduct, h]

theorem f64Trunc_mono {p q : F64} (hp : f64IsFinite p = true) (hq : f64IsFinite q = true) (hpos : 0 ≤ f64Val p)
    (hle : f64Val p ≤ f64Val q) : f64Trunc p ≤ f64Trunc q := by
  have hpos' := hpos.trans hle
  rw [f64Trunc_eq hp hpos, f64Trunc_eq hq hpos']
  rw [f64Val_eq_f64Mag hpos, f64Val_eq_f64Mag hpos', Int.ofNat_le] at hle
  exact Nat.div_le_div_right hle

/-- The truncated product grows with the value (R67). -/
theorem trunc_quantProduct_mono (hwidth : WidthOk e.width.toNat) (h : specAdmits e.width.toNat e.min e.max = true)
    (hv : f64IsNaN v = false) (hw : f64IsNaN w = false) (hle : f64Val v ≤ f64Val w) :
    f64Trunc (quantProduct e v) ≤ f64Trunc (quantProduct e w) := by
  obtain ⟨hmn, hmx, hlt, -⟩ := specAdmits_iff.1 h
  obtain ⟨hfin, hval⟩ := f64Val_quantProduct hwidth h hv
  obtain ⟨hfin', hval'⟩ := f64Val_quantProduct hwidth h hw
  refine f64Trunc_mono hfin hfin' (by omega) ?_
  have hbits := quantBits_mono h hv hw (clamp_mono hmn hmx hlt hv hw hle)
  rw [hval, hval', Int.ofNat_le]
  exact f64Mag_pack_mono _ _ hbits (quantBits_lt_inf hwidth h hw)

/-- At MIN the product is a zero (R67). -/
theorem quantize_min (hwidth : WidthOk e.width.toNat) (h : specAdmits e.width.toNat e.min e.max = true)
    (hvalid : e.valid = true) : quantize e e.min = .ok 0 := by
  obtain ⟨hmn, hmx, hlt, -⟩ := specAdmits_iff.1 h
  have hmin := f64IsNaN_of_finite hmn
  obtain ⟨neg, hsub, -⟩ := f64Sub_of_le hmn hmn le_rfl
  have hdist : f64Mag (f64Sub e.min e.min) = 0 := by
    rw [hsub, Int.sub_self, Int.toNat_zero, f64RoundMag_zero Nat.one_pos, f64Mag_pack_small _ 0 (by omega)]
  have hbits : quantBits e e.min = 0 := by
    rw [quantBits, clamp_min hmn hmx hlt, hdist, Nat.zero_mul, f64RoundMag_zero (by positivity)]
  obtain ⟨hfin, hval⟩ := f64Val_quantProduct hwidth h hmin
  rw [hbits, f64Mag_pack_small _ 0 (by omega)] at hval
  rw [quantize_eq_ok hvalid hmin, f64Trunc_of_val (n := 0) hfin (by rw [hval, Nat.cast_zero, Int.zero_mul])]

/-- The truncation of a number that differs from n by at most 1/2 is n - 1 below n, and n from n on. -/
theorem f64Trunc_near {p : F64} {n : Nat} (hn : 1 ≤ n) (hfin : f64IsFinite p = true)
    (hnear : 2 * |f64Val p - (n : Int) * 2 ^ 1074| ≤ 2 ^ 1074) :
    f64Trunc p = if f64Val p < (n : Int) * 2 ^ 1074 then n - 1 else n := by
  have hunit : (0 : Int) < 2 ^ 1074 := by positivity
  have hfloor := f64Trunc_floor hfin
  generalize (2 : Int) ^ 1074 = u at *
  have hlow := neg_abs_le (f64Val p - n * u)
  have hhigh := le_abs_self (f64Val p - n * u)
  have htop : 1 * u ≤ n * u := Int.mul_le_mul_of_nonneg_right (by omega) hunit.le
  obtain ⟨hle, hlt⟩ := hfloor (by linarith)
  have habove : (f64Trunc p : Int) < n + 1 := lt_of_mul_lt_mul_right (by linarith) hunit.le
  have hbelow : (n : Int) - 1 < f64Trunc p + 1 := lt_of_mul_lt_mul_right (by linarith) hunit.le
  split_ifs with h
  · have : (f64Trunc p : Int) < n := lt_of_mul_lt_mul_right (hle.trans_lt h) hunit.le
    omega
  · have : (n : Int) < f64Trunc p + 1 := lt_of_mul_lt_mul_right ((not_lt.1 h).trans_lt hlt) hunit.le
    omega

/-- At MAX the code is the top code n or one below, by the product against n (R67). -/
theorem trunc_quantProduct_max (hwidth : WidthOk e.width.toNat) (h : specAdmits e.width.toNat e.min e.max = true) :
    f64Trunc (quantProduct e e.max) =
      if f64Lt (quantProduct e e.max) (f64OfNat (maxCode e.width.toNat)) then maxCode e.width.toNat - 1
      else maxCode e.width.toNat := by
  obtain ⟨-, hmx, -⟩ := specAdmits_iff.1 h
  obtain ⟨hpos, hn⟩ := maxCode_bounds hwidth
  obtain ⟨hnfin, hnval⟩ := f64OfNat_exact (show maxCode e.width.toNat < 2 ^ 53 by omega)
  obtain ⟨hfin, hval⟩ := f64Val_quantProduct hwidth h (f64IsNaN_of_finite hmx)
  obtain ⟨-, hnear⟩ := quantBits_max_near hwidth h
  rw [← hval, ← f64Val_eq_f64Mag (by rw [hnval]; positivity), hnval] at hnear
  rw [f64Trunc_near hpos hfin (hnear.trans_eq (by rw [Nat.cast_pow, Nat.cast_ofNat])), ← hnval]
  simp only [f64Lt_iff (f64IsNaN_of_finite hfin) (f64IsNaN_of_finite hnfin)]

/-- No code is above the top code (R66). -/
theorem quantize_le_maxCode (hwidth : WidthOk e.width.toNat) (h : specAdmits e.width.toNat e.min e.max = true)
    (hvalid : e.valid = true) (hv : f64IsNaN v = false) : ∃ q, quantize e v = .ok q ∧ q ≤ maxCode e.width.toNat := by
  obtain ⟨-, hmx, -⟩ := specAdmits_iff.1 h
  obtain ⟨hfin, -⟩ := f64Val_quantProduct hwidth h (f64IsNaN_of_finite hmx)
  obtain ⟨q, hq, hle⟩ := quantize_le_max hvalid h hv hfin
  refine ⟨q, hq, hle.trans ?_⟩
  rw [trunc_quantProduct_max hwidth h]
  split <;> omega

end

/-! ## The statements -/

/-- Settles O36: the product at MAX is the greatest, and its truncation is at most the top code. -/
theorem quantizeStaysInRange : Obligations.QuantizeStaysInRange := by
  rintro e v ⟨hok, -⟩ hvalid hv
  obtain ⟨hwidth, hadmits⟩ := hok hvalid
  obtain ⟨hfin, hval⟩ := f64Val_quantProduct hwidth hadmits hv
  exact ⟨hfin, by omega, quantize_le_maxCode hwidth hadmits hvalid hv⟩

/-- Settles O37: each clause by the clamped values, and the infinities by their order against finite bounds. -/
theorem clampingIsSilentAndTotal : Obligations.ClampingIsSilentAndTotal := by
  rintro e v ⟨hok, -⟩ hvalid hv
  obtain ⟨hwidth, hadmits⟩ := hok hvalid
  obtain ⟨hmn, hmx, hlt, -⟩ := specAdmits_iff.1 hadmits
  have hmin := f64IsNaN_of_finite hmn
  have hmax := f64IsNaN_of_finite hmx
  have hbelow {x : F64} (hx : f64IsNaN x = false) (h : f64Lt x e.min = true) : quantize e x = quantize e e.min :=
    quantize_congr hx hmin (by rw [clamp_of_lt h, clamp_min hmn hmx hlt])
  have habove {x : F64} (hx : f64IsNaN x = false) (h : f64Gt x e.max = true) : quantize e x = quantize e e.max :=
    quantize_congr hx hmax (by rw [clamp_of_gt hmn hmx hlt hx h, clamp_max hmn hmx hlt])
  refine ⟨⟨_, quantize_eq_ok hvalid hv⟩, hbelow hv, habove hv, clamp_of_between, ?_, ?_, fun hzero => ?_, ?_⟩
  · exact hbelow rfl ((f64Lt_iff rfl hmin).2 (f64Val_between_inf hmn).1)
  · exact habove rfl ((f64Lt_iff hmax rfl).2 (f64Val_between_inf hmx).2)
  · have hle := trunc_quantProduct_mono hwidth hadmits (v := 0x8000000000000000) rfl hmin (by rw [hzero]; decide)
    obtain ⟨-, -, htrunc⟩ := quantize_eq_ok_iff.1 (quantize_min hwidth hadmits hvalid)
    exact quantize_eq_ok_iff.2 ⟨hvalid, rfl, by omega⟩
  · obtain ⟨hfin, -⟩ := clamp_between hmn hmx hlt hv
    exact quantize_congr (f64IsNaN_of_finite hfin) hv (clamp_clamp hmn hmx hlt hv)

/-- Settles O38, by `trunc_quantProduct_mono`. -/
theorem quantizeIsMonotonic : Obligations.QuantizeIsMonotonic := by
  rintro e v w p q ⟨hok, -⟩ hv hw hle hp hq
  obtain ⟨hvalid, -, rfl⟩ := quantize_eq_ok_iff.1 hp
  obtain ⟨-, -, rfl⟩ := quantize_eq_ok_iff.1 hq
  obtain ⟨hwidth, hadmits⟩ := hok hvalid
  rw [← Bool.not_eq_true, f64Lt_iff hw hv, not_lt] at hle
  exact trunc_quantProduct_mono hwidth hadmits hv hw hle

/-- Settles O39, by `quantize_min`. -/
theorem quantizeOfMinIsZero : Obligations.QuantizeOfMinIsZero := by
  rintro e ⟨hok, -⟩ hvalid
  obtain ⟨hwidth, hadmits⟩ := hok hvalid
  exact quantize_min hwidth hadmits hvalid

/-- Settles O40, by `trunc_quantProduct_max`. -/
theorem quantizeOfMaxIsTopOrOneBelow : Obligations.QuantizeOfMaxIsTopOrOneBelow := by
  rintro e ⟨hok, -⟩ hvalid
  obtain ⟨hwidth, hadmits⟩ := hok hvalid
  obtain ⟨hmn, hmx, hlt, -⟩ := specAdmits_iff.1 hadmits
  have hprod : quantProduct e e.max = f64Mul (f64Sub e.max e.min)
      (f64Div (f64OfNat (2 ^ e.width.toNat - 1)) (f64Sub e.max e.min)) := by
    rw [quantProduct, clamp_max hmn hmx hlt]; rfl
  refine ⟨_, quantize_eq_ok hvalid (f64IsNaN_of_finite hmx), ?_⟩
  rw [trunc_quantProduct_max hwidth hadmits, ← hprod]
  exact ⟨fun h => if_pos h, fun h => if_neg (ne_true_of_eq_false h)⟩

/-- The code at MAX of each device field, by its product against the top code: kp's alone is below (R67). -/
theorem quantize_reset_max {idx : SpecIdx} (hidx : idx.val < 5) :
    quantize (State.reset.entry idx) (State.reset.entry idx).max =
      .ok (if idx = 2 then 4094 else maxCode (State.reset.entry idx).width.toNat) := by
  have hdevice : ∀ i : SpecIdx, i.val < 5 → (State.reset.entry i).valid = true ∧
      f64Lt (quantProduct (State.reset.entry i) (State.reset.entry i).max)
        (f64OfNat (maxCode (State.reset.entry i).width.toNat)) = decide (i = 2) := by decide +kernel
  obtain ⟨hvalid, hbelow⟩ := hdevice idx hidx
  obtain ⟨hok, -⟩ := reset_tableOk idx
  obtain ⟨hwidth, hadmits⟩ := hok hvalid
  obtain ⟨-, hmx, -⟩ := specAdmits_iff.1 hadmits
  rw [quantize_eq_ok hvalid (f64IsNaN_of_finite hmx), trunc_quantProduct_max hwidth hadmits, hbelow]
  by_cases hkp : idx = 2
  · subst hkp; rfl
  · simp [hkp]

/-- Settles O41: the codes at MAX, and kp's bounds every other. -/
theorem deviceTableTopCodes : Obligations.DeviceTableTopCodes := by
  refine ⟨quantize_reset_max (idx := 0) (by decide), quantize_reset_max (idx := 1) (by decide),
    quantize_reset_max (idx := 2) (by decide), quantize_reset_max (idx := 3) (by decide),
    quantize_reset_max (idx := 4) (by decide), fun v q hq => ?_⟩
  obtain ⟨hvalid, hv, -⟩ := quantize_eq_ok_iff.1 hq
  obtain ⟨-, hmaxnan, htop⟩ := quantize_eq_ok_iff.1 (quantize_reset_max (idx := 2) (by decide))
  obtain ⟨hok, -⟩ := reset_tableOk 2
  obtain ⟨hwidth, hadmits⟩ := hok hvalid
  obtain ⟨hfin, -⟩ := f64Val_quantProduct hwidth hadmits hmaxnan
  obtain ⟨q', hq', hle⟩ := quantize_le_max hvalid hadmits hv hfin
  rw [hq, Except.ok.injEq] at hq'
  rw [htop] at hle
  exact hq' ▸ hle

end Sys2Proof.Machine
end

section
/-! The quantizer family: SPEC.WR (R68), SPEC.RD (R69), QUANT (R70). -/

namespace Sys2Proof.Machine

/-! ## SPEC.WR -/

/-- A width the port can carry fits the entry's 6 bits (R24, R54). -/
theorem ofNat_width_toNat {width : Nat} (h : WidthOk width) : (BitVec.ofNat 6 width).toNat = width := by
  obtain ⟨-, hmax⟩ := h
  have hlt : width < 2 ^ 6 := Nat.lt_of_le_of_lt hmax (by decide)
  rw [BitVec.toNat_ofNat, Nat.mod_eq_of_lt hlt]

/-- SPEC.WR of admitted bounds writes the whole entry (R68). -/
theorem exec_specWr_admitted {s : State} {idx : SpecIdx} {width : Nat} {mn mx : F64} (hlive : s.fault = false)
    (h : specAdmits width mn mx = true) :
    exec (.specWr idx width mn mx) s = .next (s.setEntry idx ⟨true, BitVec.ofNat 6 width, mn, mx⟩) := by
  rw [exec_eq_runCommand, effect, if_pos h, runCommand_ok hlive]

/-- SPEC.WR of bounds that are not admitted is a fault (R68). -/
theorem exec_specWr_refused {s : State} {idx : SpecIdx} {width : Nat} {mn mx : F64} (hlive : s.fault = false)
    (h : specAdmits width mn mx = false) : exec (.specWr idx width mn mx) s = .next (s.takeFault .specBad) := by
  rw [exec_eq_runCommand, effect, h, if_neg Bool.false_ne_true, runCommand_error hlive]

/-- The five checks of SPEC.WR, as R68 lists them. -/
theorem specAdmits_eq (width : Nat) (mn mx : F64) : specAdmits width mn mx =
    (f64IsFinite mn && f64IsFinite mx && f64Lt mn mx && f64IsFinite (f64Sub mx mn) &&
      f64IsFinite (f64Div (f64OfNat (2 ^ width - 1)) (f64Sub mx mn))) := rfl

/-- Settles O19, by `exec_specWr_admitted` and `exec_specWr_refused`. -/
theorem specWrWritesAnAdmittedEntry : Obligations.SpecWrWritesAnAdmittedEntry := by
  refine ⟨fun c => decode_row 1 (by decide) c, fun s idx w mn mx hlive hw =>
    ⟨fun hmn hmx hlt hspan hratio => ?_, fun hbad => ?_⟩⟩
  · have hadmits : specAdmits w mn mx = true := by
      rw [specAdmits_eq, hmn, hmx, hlt, hspan, hratio]; rfl
    refine ⟨_, exec_specWr_admitted hlive hadmits, rfl, ?_⟩
    simp only [State.entry_setEntry, if_pos, ofNat_width_toNat hw, true_and]
    exact fun j hj => if_neg hj.symm
  · have hrefused : specAdmits w mn mx = false := by
      rw [specAdmits_eq]
      rcases hbad with h | h | h | h | h <;> simp [h]
    exact exec_specWr_refused hlive hrefused

/-! ## SPEC.RD -/

/-- SPEC.RD of a selector with a word reads it into RES (R69). -/
theorem exec_specRd_word {s : State} {idx : SpecIdx} {sel : Byte} {w : Word64} (hlive : s.fault = false)
    (h : (s.entry idx).word sel = some w) : exec (.specRd idx sel) s = .next (s.setRes w) := by
  rw [exec_eq_runCommand, effect, h]
  exact runCommand_ok hlive _

/-- The width/valid word as a number (R69). -/
theorem SpecEntry.widthWord_toNat (e : SpecEntry) : e.widthWord.toNat = e.width.toNat + 256 * e.valid.toNat := by
  have := e.width.isLt
  have := e.valid.toNat_lt
  simp only [SpecEntry.widthWord, BitVec.toNat_setWidth, toNat_append_eq_add, BitVec.toNat_ofBool, BitVec.toNat_ofNat]
  omega

/-- Settles O20: the words of the selectors 0, 1 and 2, and the fault from 3 on. -/
theorem specRdReadsTheSelectedWord : Obligations.SpecRdReadsTheSelectedWord := by
  refine ⟨fun c => decode_row 2 (by decide) c, fun s idx hlive => ⟨⟨_, exec_specRd_word hlive rfl, ?_⟩,
    exec_specRd_word hlive rfl, exec_specRd_word hlive rfl, fun sel => exec_specRd_illegal hlive⟩⟩
  exact (s.entry idx).widthWord_toNat

/-! ## QUANT -/

/-- QUANT reads the code into RES (R70). -/
theorem exec_quant_ok {s : State} {idx : SpecIdx} {v : F64} {q : Nat} (hlive : s.fault = false)
    (h : quantize (s.entry idx) v = .ok q) : exec (.quant idx v) s = .next (s.setRes (zextNat q)) := by
  rw [exec_eq_runCommand, effect, h]
  exact runCommand_ok hlive _

/-- QUANT raises the quantizer's fault (R70). -/
theorem exec_quant_error {s : State} {idx : SpecIdx} {v : F64} {c : FaultCode} (hlive : s.fault = false)
    (h : quantize (s.entry idx) v = .error c) : exec (.quant idx v) s = .next (s.takeFault c) := by
  rw [exec_eq_runCommand, effect, h]
  exact runCommand_error hlive c

/-- Settles O21: the fault order of `quantize`, and the range of its code. -/
theorem quantReturnsTheTruncatedProduct : Obligations.QuantReturnsTheTruncatedProduct := by
  refine ⟨fun c => decode_row 3 (by decide) c, fun s idx v hlive ⟨hok, _⟩ =>
    ⟨fun hunset => exec_quant_error (c := .specUnset) hlive ?_,
      fun hvalid hnan => exec_quant_error (c := .nanInput) hlive ?_, fun hvalid hv => ?_⟩⟩
  · rw [quantize, hunset]; rfl
  · rw [quantize, hvalid, hnan]; rfl
  · obtain ⟨hwidth, hadmits⟩ := hok hvalid
    obtain ⟨hfin, hval⟩ := f64Val_quantProduct hwidth hadmits hv
    obtain ⟨q, hq, hle⟩ := quantize_le_maxCode hwidth hadmits hvalid hv
    obtain ⟨-, -, htrunc⟩ := quantize_eq_ok_iff.1 hq
    have hres : (zextNat q).toNat = q := by
      obtain ⟨-, hn⟩ := maxCode_bounds hwidth
      rw [zextNat, BitVec.toNat_ofNat, Nat.mod_eq_of_lt (by omega)]
    have hpos : 0 ≤ f64Val (quantProduct (s.entry idx) v) := by omega
    exact ⟨_, exec_quant_ok hlive hq, hres.trans_le hle, _, _, _, _, rfl, rfl, rfl, rfl, hfin, hpos,
      hres.trans htrunc.symm⟩

end Sys2Proof.Machine
end

section
/-! The bit-packer family: PK.CLR (R72), PK.APP (R73), PK.QAPP (R74), PK.FIN (R75), PK.RD (R76). -/

namespace Sys2Proof.Machine

/-! ## A command by its effect -/

/-- A command with an effect on an unfaulted block ends in it (R13). -/
theorem exec_of_effect_ok {i : Instr} {s t : State} (hlive : s.fault = false) (h : effect i s = .ok t) :
    exec i s = .next t := by
  rw [exec_eq_runCommand, h, runCommand_ok hlive]

/-- A command that raises a fault on an unfaulted block takes the fault entry (R88). -/
theorem exec_of_effect_error {i : Instr} {s : State} {c : FaultCode} (hlive : s.fault = false)
    (h : effect i s = .error c) : exec i s = .next (s.takeFault c) := by
  rw [exec_eq_runCommand, h, runCommand_error hlive]

/-- A row without a field selects its pattern alone (R57). -/
theorem decode_row_exact (k : Nat) (hk : k < opcodeMap.length) (hmask : opcodeMap[k].mask = BitVec.allOnes 32)
    (c : Command) (h : c.cmd = opcodeMap[k].pattern) : decode c = .ok (opcodeMap[k].build c) :=
  decode_row k hk c (by rw [hmask, BitVec.and_allOnes, h])

/-- PK.BITS as STATUS shows it (R20). -/
theorem State.status_pkBits (s : State) : s.status.extractLsb' 16 9 = s.pkBits := by
  obtain ⟨-, -, -, -, -, hbits, -⟩ := statusHoldsItsFields s
  exact hbits

/-- PK.DONE as STATUS shows it (R20). -/
theorem State.status_pkDone (s : State) : s.status.getLsbD 8 = s.pkDone := by
  obtain ⟨-, -, -, hdone, -⟩ := statusHoldsItsFields s
  exact hdone

/-! ## PK.CLR -/

/-- Settles O22: the state that PK.CLR leaves, and its STATUS. -/
theorem pkClrEmptiesTheStream : Obligations.PkClrEmptiesTheStream := by
  refine ⟨fun c => decode_row_exact 4 (by decide) rfl c, fun s hlive =>
    ⟨(s.setStream s.pkBuf 0).setDone false, exec_of_effect_ok hlive rfl, rfl, ?_, ?_⟩⟩
  · rw [State.status_pkDone, State.setDone_pkDone]
  · rw [State.status_pkBits, State.setDone_pkBits, State.setStream_pkBits]

/-! ## PK.APP -/

section
variable {s : State} {width v : Nat}

theorem appendField_sealed (hsealed : s.pkDone = true) : appendField s width v = .error .pkState := if_pos hsealed

theorem appendField_range (hopen : s.pkDone = false) (hrange : 2 ^ width ≤ v) :
    appendField s width v = .error .fieldRange := by
  simp [appendField, hopen, hrange]

theorem appendField_overflow (hopen : s.pkDone = false) (hrange : v < 2 ^ width)
    (hover : 256 < s.pkBits.toNat + width) : appendField s width v = .error .pkOverflow := by
  simp [appendField, hopen, hrange, hover]

/-- Every bit of the buffer after an append: `appended_streamBit` up to the new end, the old bit behind it (R33). -/
theorem State.appended_bufferBit (v : Nat) (hfit : s.pkBits.toNat + width ≤ 256) {j : Nat} (hj : j < 256) :
    (s.appended width v).streamBit j =
      if j < s.pkBits.toNat then s.streamBit j
      else if j < s.pkBits.toNat + width then v.testBit (width - 1 - (j - s.pkBits.toNat))
      else s.streamBit j := by
  by_cases hnew : j < s.pkBits.toNat + width
  · rw [appended_streamBit v hfit hnew, if_pos hnew]
  · rw [if_neg (by omega), if_neg hnew, streamBit, appended, setStream_pkBuf,
      writeField_getLsbD _ _ _ _ _ (by omega), if_neg (by omega), streamBit]

end

/-- PK.APP raises the fault of its append (R73). -/
theorem exec_pkApp_of_append_error {s : State} {width : Nat} {v : Word64} {c : FaultCode} (hlive : s.fault = false)
    (h : appendField s width v.toNat = .error c) : exec (.pkApp width v) s = .next (s.takeFault c) :=
  exec_of_effect_error hlive h

/-- Settles O23: the three faults of `Append` in their order, and the appended field. -/
theorem pkAppAppendsTheField : Obligations.PkAppAppendsTheField := by
  refine ⟨fun c => decode_row 5 (by decide) c, fun s w v hlive _ =>
    ⟨fun hsealed => exec_pkApp_of_append_error hlive (appendField_sealed hsealed),
      fun hopen hrange => exec_pkApp_of_append_error hlive (appendField_range hopen hrange),
      fun hopen hrange hover => exec_pkApp_of_append_error hlive (appendField_overflow hopen hrange hover),
      fun hopen hrange hfit => ?_⟩⟩
  have hbits := State.appended_pkBits v.toNat hfit
  refine ⟨s.appended w v.toNat, exec_of_effect_ok hlive (appendField_eq_ok_iff.2 ⟨hopen, hrange, hfit, rfl⟩), rfl,
    hbits, ?_, fun j => State.appended_bufferBit v.toNat hfit⟩
  rw [State.status_pkBits, State.status_pkBits, hbits]

/-! ## PK.QAPP -/

section
variable {e : SpecEntry} {v : F64}

theorem quantize_unset (hunset : e.valid = false) : quantize e v = .error .specUnset := by
  simp [quantize, hunset]

theorem quantize_nan (hvalid : e.valid = true) (hnan : f64IsNaN v = true) : quantize e v = .error .nanInput := by
  simp [quantize, hvalid, hnan]

end

/-- A code enters RES whole (R66, R74). -/
theorem zextNat_code_toNat {width q : Nat} (hwidth : WidthOk width) (hq : q ≤ maxCode width) :
    (zextNat q).toNat = q := by
  obtain ⟨-, hmax⟩ := maxCode_bounds hwidth
  rw [zextNat, BitVec.toNat_ofNat, Nat.mod_eq_of_lt (by omega)]

/-- The codes of a width are the values that the width admits, so the append of a code never faults with FIELD_RANGE
(R66, R74). -/
theorem le_maxCode_iff {width q : Nat} : q ≤ maxCode width ↔ q < 2 ^ width :=
  Nat.le_sub_one_iff_lt (Nat.two_pow_pos width)

section
variable {s : State} {idx : SpecIdx} {v : F64}

theorem effect_pkQapp_sealed (hsealed : s.pkDone = true) : effect (.pkQapp idx v) s = .error .pkState :=
  if_pos hsealed

/-- The quantizer's fault on an open stream (R74). -/
theorem effect_pkQapp_of_quantize_error {c : FaultCode} (hopen : s.pkDone = false)
    (hq : quantize (s.entry idx) v = .error c) : effect (.pkQapp idx v) s = .error c := by
  rw [effect, hopen, hq]
  rfl

/-- The fault of the code's append (R74). -/
theorem effect_pkQapp_of_append_error {q : Nat} {c : FaultCode} (hopen : s.pkDone = false)
    (hq : quantize (s.entry idx) v = .ok q) (ha : appendField s (s.entry idx).width.toNat q = .error c) :
    effect (.pkQapp idx v) s = .error c := by
  rw [effect, hopen, hq, if_neg Bool.false_ne_true, Except.bind, ha]
  rfl

end

/-- Settles O24: the faults of `quantize` and of the append in their order, and the appended code, whose range is
`quantize_le_maxCode`. -/
theorem pkQappAppendsTheCode : Obligations.PkQappAppendsTheCode := by
  refine ⟨fun c => decode_row 6 (by decide) c, fun s idx v hlive ⟨hok, _⟩ =>
    ⟨fun hsealed => exec_of_effect_error hlive (effect_pkQapp_sealed hsealed),
      fun hopen hunset => exec_of_effect_error hlive (effect_pkQapp_of_quantize_error hopen (quantize_unset hunset)),
      fun hopen hvalid hnan =>
        exec_of_effect_error hlive (effect_pkQapp_of_quantize_error hopen (quantize_nan hvalid hnan)),
      fun hopen hvalid hv hover => ?_, fun hopen hvalid hv hfit => ?_⟩⟩
  all_goals
    obtain ⟨hwidth, hadmits⟩ := hok hvalid
    obtain ⟨q, hq, hle⟩ := quantize_le_maxCode hwidth hadmits hvalid hv
    have hrange := le_maxCode_iff.1 hle
  · exact exec_of_effect_error hlive
      (effect_pkQapp_of_append_error hopen hq (appendField_overflow hopen hrange hover))
  · exact ⟨_, q, exec_pkQapp_ok hlive hopen hq hrange hfit, hq, hle, zextNat_code_toNat hwidth hle, rfl,
      State.appended_pkBits q hfit, fun j => State.appended_bufferBit q hfit⟩

/-! ## PK.FIN -/

/-- Settles O25: a second PK.FIN finds the same length, so it writes what already stands. -/
theorem pkFinSealsAnAlignedStream : Obligations.PkFinSealsAnAlignedStream := by
  refine ⟨fun c => decode_row_exact 7 (by decide) rfl c, fun s hlive =>
    ⟨exec_pkFin_misaligned hlive, fun halign => ⟨zextNat s.nBytes, exec_pkFin_aligned hlive halign, ?_,
      exec_pkFin_aligned (s := (s.setDone true).setRes (zextNat s.nBytes)) hlive halign⟩⟩⟩
  rw [zextNat_nBytes_toNat]
  omega

/-! ## PK.RD -/

section
variable {s : State} {k : Byte}

theorem exec_pkRd_open (hlive : s.fault = false) (hopen : s.pkDone = false) :
    exec (.pkRd k) s = .next (s.takeFault .pkState) :=
  exec_of_effect_error hlive (by simp [effect, hopen])

theorem exec_pkRd_index (hlive : s.fault = false) (hsealed : s.pkDone = true) (hk : s.nBytes ≤ k.toNat) :
    exec (.pkRd k) s = .next (s.takeFault .pkIndex) :=
  exec_of_effect_error hlive (by simp [effect, hsealed, hk])

theorem exec_pkRd_byte (hlive : s.fault = false) (hsealed : s.pkDone = true) (hk : k.toNat < s.nBytes) :
    exec (.pkRd k) s = .next (s.setRes (zextByte (pkByte s.pkBuf k.toNat))) :=
  exec_of_effect_ok hlive (by simp [effect, hsealed, hk])

end

/-- A byte in RES is a number below 256 (R55). -/
theorem zextByte_toNat_lt (b : Byte) : (zextByte b).toNat < 256 := by
  rw [zextByte, BitVec.toNat_setWidth_of_le (by decide)]
  exact b.isLt

/-- A byte keeps its bits in RES (R55). -/
theorem zextByte_getLsbD (b : Byte) {i : Nat} (hi : i < 8) : (zextByte b).getLsbD i = b.getLsbD i := by
  rw [zextByte, BitVec.getLsbD_setWidth, decide_eq_true (by omega), Bool.true_and]

/-- Settles O26: a byte below NBYTES lies in the buffer, and `pkByteSlicesTheStream` gives its bits. -/
theorem pkRdReadsAPayloadByte : Obligations.PkRdReadsAPayloadByte := by
  refine ⟨fun c => decode_row 8 (by decide) c, fun s k hlive hbits =>
    ⟨exec_pkRd_open hlive, exec_pkRd_index hlive, fun hsealed hk =>
      ⟨_, exec_pkRd_byte hlive hsealed hk, zextByte_toNat_lt _, fun b hb => ?_⟩⟩⟩
  obtain ⟨hbit, -⟩ := pkByteSlicesTheStream s k.toNat b (by omega) hb
  rw [zextByte_getLsbD _ hb, hbit]

end Sys2Proof.Machine
end

section
/-! The checksum family: CS.CLR (R79), CS.ADD (R80), CS.PK (R81), CS.RD (R82), and the checksum law (R78). -/

namespace Sys2Proof.Machine

/-! ## Sums of bytes -/

/-- A sum of bytes, as a number, is the sum modulo 256 of any numbers congruent to them (R78). -/
theorem sum_map_toNat {α : Type} {f : α → Byte} {g : α → Nat} (h : ∀ a, (f a).toNat = g a % 256) (l : List α) :
    (l.map f).sum.toNat = (l.map g).sum % 256 := by
  induction l with
  | nil => rfl
  | cons a l ih => simp only [List.map_cons, List.sum_cons, BitVec.toNat_add, h, ih, ← Nat.add_mod]

/-- The payload's bytes in index order (R34). -/
def State.payloadBytes (s : State) : List Byte := (List.range s.nBytes).map (pkByte s.pkBuf)

/-- The payload sum as the model adds it up is the old sum plus the sum of the payload's bytes (R81). -/
theorem addPayload_eq_add_sum (sum : Byte) (s : State) :
    addPayload sum s.pkBuf s.nBytes = sum + s.payloadBytes.sum := by
  rw [addPayload, State.payloadBytes, ← List.foldl_map, List.foldl_eq_apply_foldr]
  rfl

theorem State.payloadBytes_sum_toNat (s : State) :
    s.payloadBytes.sum.toNat = ((List.range s.nBytes).map fun k => (pkByte s.pkBuf k).toNat).sum % 256 :=
  sum_map_toNat (fun k => (Nat.mod_eq_of_lt (pkByte s.pkBuf k).isLt).symm) _

/-- Of two writes of the sum the later one stands (R29). -/
@[simp] theorem State.setSum_setSum (s : State) (x y : Byte) : (s.setSum x).setSum y = s.setSum y := rfl

/-- Writing the sum that stands changes nothing (R29). -/
@[simp] theorem State.setSum_self (s : State) : s.setSum s.csSum = s := rfl

/-! ## The summands of a checksum -/

/-- What a summand adds, as a byte (R78). -/
def sumItemByte (s : State) : Option Byte → Byte
  | some b => b
  | none => s.payloadBytes.sum

/-- `sumItemByte` is `sumItemValue` modulo 256. -/
theorem sumItemByte_toNat (s : State) (item : Option Byte) :
    (sumItemByte s item).toNat = sumItemValue s item % 256 := by
  cases item with
  | some b => exact (Nat.mod_eq_of_lt b.isLt).symm
  | none => exact s.payloadBytes_sum_toNat

/-- No summand reads the sum. -/
theorem sumItemByte_setSum (s : State) (x : Byte) : sumItemByte (s.setSum x) = sumItemByte s := by
  funext item
  cases item <;> rfl

/-- A summand's command adds its byte, where CS.PK finds a sealed packer (R80, R81). -/
theorem exec_sumItem {s : State} {item : Option Byte} (hlive : s.fault = false)
    (hsealed : item = none → s.pkDone = true) :
    exec (sumItem item) s = .next (s.setSum (s.csSum + sumItemByte s item)) := by
  cases item with
  | some b => exact exec_csAdd hlive b
  | none => rw [sumItem, exec_csPk_sealed hlive (hsealed rfl), addPayload_eq_add_sum, sumItemByte]

/-- A sequence of summands adds the sum of their bytes (R78). -/
theorem runInstrs_sumItems (items : List (Option Byte)) {s : State} (hlive : s.fault = false)
    (hsealed : none ∈ items → s.pkDone = true) :
    runInstrs (items.map sumItem) s = .next (s.setSum (s.csSum + (items.map (sumItemByte s)).sum)) := by
  induction items generalizing s with
  | nil => simp [runInstrs]
  | cons item items ih =>
    have hfirst := exec_sumItem hlive fun h : item = none => hsealed (h ▸ List.mem_cons_self)
    have hrest := ih (s := s.setSum (s.csSum + sumItemByte s item)) hlive
      fun h => hsealed (List.mem_cons_of_mem _ h)
    rw [List.map_cons, runInstrs_cons hfirst, hrest, sumItemByte_setSum, State.setSum_csSum, State.setSum_setSum,
      List.map_cons, List.sum_cons, BitVec.add_assoc]

/-- After CS.CLR the old sum is gone: the sum of the summands alone stands (R78, R79). -/
theorem runInstrs_csClr_sumItems (items : List (Option Byte)) {s : State} (hlive : s.fault = false)
    (hsealed : none ∈ items → s.pkDone = true) :
    runInstrs (.csClr :: items.map sumItem) s = .next (s.setSum (items.map (sumItemByte s)).sum) := by
  rw [runInstrs_cons (exec_csClr hlive), runInstrs_sumItems (s := s.setSum 0) items hlive hsealed,
    sumItemByte_setSum, State.setSum_csSum, State.setSum_setSum, zero_add]

/-! ## The statements -/

/-- Settles O49, by `runInstrs_csClr_sumItems`: the final state holds a sum of bytes, which no order of them changes. -/
theorem checksumIsTheSumModulo256 : Obligations.ChecksumIsTheSumModulo256 := by
  intro s items hlive hsealed
  refine ⟨_, runInstrs_csClr_sumItems items hlive hsealed, rfl, sum_map_toNat (sumItemByte_toNat s) items,
    fun hzero => ?_, fun items' hperm => ?_⟩
  · rw [runInstrs_sumItems items hlive hsealed, hzero, zero_add]
  · have hsum : (items.map (sumItemByte s)).sum = (items'.map (sumItemByte s)).sum := (hperm.map _).sum_eq
    rw [runInstrs_csClr_sumItems items' hlive fun h => hsealed (hperm.mem_iff.2 h), hsum]

/-- Settles O48: a faulted block ignores both sides, and on an unfaulted one both add the sum of the payload's bytes. -/
theorem csPkIsCsAddOfEachByte : Obligations.CsPkIsCsAddOfEachByte := by
  intro s hsealed
  change runInstrs (csBytes s.payloadBytes) s = exec .csPk s
  cases hfault : s.fault with
  | true => rw [runInstrs_faulted hfault, exec_eq_runCommand, runCommand_faulted hfault]
  | false => rw [runInstrs_csBytes _ hfault, exec_csPk_sealed hfault hsealed, addPayload_eq_add_sum]

/-- Settles O29, by `exec_csPk_open`, `exec_csPk_sealed` and `addPayload_toNat`. -/
theorem csPkAddsThePayload : Obligations.CsPkAddsThePayload :=
  ⟨decode_row_exact 11 (by decide) rfl, fun s hlive =>
    ⟨exec_csPk_open hlive, fun hsealed =>
      ⟨_, exec_csPk_sealed hlive hsealed, rfl, addPayload_toNat s.csSum s.pkBuf s.nBytes⟩⟩⟩

/-- Settles O27, by `exec_csClr`. -/
theorem csClrClearsTheSum : Obligations.CsClrClearsTheSum :=
  ⟨decode_row_exact 9 (by decide) rfl, fun _ => exec_csClr⟩

/-- Settles O28, by `exec_csAdd`: an 8-bit sum is one modulo 256. -/
theorem csAddAddsModulo256 : Obligations.CsAddAddsModulo256 :=
  ⟨decode_row 10 (by decide), fun s b hlive => ⟨_, exec_csAdd hlive b, rfl, BitVec.toNat_add s.csSum b⟩⟩

/-- A byte keeps its number in RES (R55). -/
theorem zextByte_toNat (b : Byte) : (zextByte b).toNat = b.toNat :=
  BitVec.toNat_setWidth_of_le (by decide)

/-- RES[63:8] are 0 under a byte (R55). -/
theorem zextByte_high (b : Byte) : (zextByte b).extractLsb' 8 56 = 0 := by
  apply BitVec.eq_of_toNat_eq
  rw [BitVec.extractLsb'_toNat, Nat.shiftRight_eq_div_pow, Nat.div_eq_of_lt (zextByte_toNat_lt b)]
  rfl

/-- Settles O30, by `exec_csRd` and the two facts about a byte in RES. -/
theorem csRdReadsTheSum : Obligations.CsRdReadsTheSum :=
  ⟨decode_row_exact 12 (by decide) rfl, fun s hlive =>
    ⟨_, exec_csRd hlive, zextByte_toNat s.csSum, zextByte_high s.csSum⟩⟩

end Sys2Proof.Machine
end

section
/-! NOP: the all-zero word, and no state change (R83). -/

namespace Sys2Proof.Machine

/-- A row whose mask takes every bit leaves its opcode no word but its own: any other has a 1 in an unused bit (R59). -/
theorem decode_error_of_exact_row {c : Command} {r : OpRow} (hr : r ∈ opcodeMap) (hmask : r.mask = BitVec.allOnes 32)
    (hopc : c.opc = r.pattern.extractLsb' 0 8) (hne : c.cmd ≠ r.pattern) : ∃ e, decode c = .error e := by
  refine decode_error fun q hq => Bool.eq_false_iff.2 fun hsel => hne ?_
  have hq_eq : q = r := OpRow.eq_of_opc hq hr ((OpRow.opc_of_selects q hq c hsel).symm.trans hopc)
  rw [← OpRow.selects_iff.1 (hq_eq ▸ hsel), hmask, BitVec.and_allOnes]

/-- NOP answers the state it found, faulted or not (R83, R90). -/
theorem exec_nop (s : State) : exec .nop s = .next s := by
  rw [exec_eq_runCommand]
  cases hfault : s.fault with
  | true => exact runCommand_faulted hfault _
  | false => exact runCommand_ok hfault s

/-- Settles O18: the decoder by NOP's row, the opcode map's first, and the effect by `exec_nop`. -/
theorem nopChangesNothing : Obligations.NopChangesNothing := by
  have herr (c : Command) : c.opc = 0x00 → c.cmd ≠ 0x00000000 → ∃ e, decode c = .error e :=
    decode_error_of_exact_row (List.getElem_mem (n := 0) (by decide)) rfl
  refine ⟨decode_row_exact 0 (by decide) rfl, herr, fun s c hev hlive hopc hne => ?_, exec_nop⟩
  obtain ⟨e, hdec⟩ := herr c hopc hne
  exact (step_command hev).trans (issue_illegal hlive hdec)

end Sys2Proof.Machine
end

section
/-! Faults on the whole machine: what a faulted block does (R90), what a command that faults leaves (R89), and which commands
raise which code (R87). -/

namespace Sys2Proof.Machine

/-! ## After a fault -/

/-- No instruction has an effect on a faulted block (R90). -/
theorem exec_faulted {s : State} (hfault : s.fault = true) (i : Instr) : exec i s = .next s := by
  rw [exec_eq_runCommand, runCommand_faulted hfault]

/-- Settles O9: `issue_faulted` at the port, `exec_faulted` for each instruction, and STATUS by its fields. -/
theorem everyCommandIsIgnoredAfterAFault : Obligations.EveryCommandIsIgnoredAfterAFault := by
  intro s hfault
  obtain ⟨hflag, -, hfcode, -⟩ := statusHoldsItsFields s
  exact ⟨fun c hev => (step_command hev).trans (issue_faulted hfault), hflag.trans hfault, hfcode, exec_faulted hfault⟩

/-! ## Taking a fault -/

/-- A command that leaves an unfaulted block faulted took the fault entry on the state it found: its writes never set FAULT
(R88, R89). -/
theorem exec_sets_fault {i : Instr} {s t : State} (hlive : s.fault = false) (h : exec i s = .next t)
    (hfault : t.fault = true) : ∃ c, effect i s = .error c ∧ t = s.takeFault c := by
  rw [exec_eq_runCommand] at h
  rcases runCommand_cases h with ⟨hfaulted, -⟩ | ⟨-, hwrites⟩ | ⟨-, herror⟩
  · simp [hlive] at hfaulted
  · obtain ⟨hkept, -⟩ := (effect_writes hwrites).frame
    simp [hkept, hlive] at hfault
  · exact herror

/-- Settles O31: the fault entry writes the two fault fields alone, and the codes are numbered 1 to 9. -/
theorem faultingCommandWritesOnlyTheFaultFields : Obligations.FaultingCommandWritesOnlyTheFaultFields := by
  intro i s t hlive h hfault
  obtain ⟨c, -, rfl⟩ := exec_sets_fault hlive h hfault
  exact ⟨rfl, c.code_range⟩

/-! ## The codes of each command -/

/-- The rows of R87 read by command: the faults an instruction can raise over a table that meets R25. -/
inductive Raises : Instr → FaultCode → Prop
  | specWr {idx width mn mx} : Raises (.specWr idx width mn mx) .specBad
  | specRd {idx sel} : Raises (.specRd idx sel) .illegal
  | quantUnset {idx v} : Raises (.quant idx v) .specUnset
  | quantNan {idx v} : Raises (.quant idx v) .nanInput
  | pkAppSealed {width v} : Raises (.pkApp width v) .pkState
  | pkAppRange {width v} : Raises (.pkApp width v) .fieldRange
  | pkAppOverflow {width v} : Raises (.pkApp width v) .pkOverflow
  | pkQappSealed {idx v} : Raises (.pkQapp idx v) .pkState
  | pkQappUnset {idx v} : Raises (.pkQapp idx v) .specUnset
  | pkQappNan {idx v} : Raises (.pkQapp idx v) .nanInput
  | pkQappOverflow {idx v} : Raises (.pkQapp idx v) .pkOverflow
  | pkFin : Raises .pkFin .pkAlign
  | pkRdOpen {k} : Raises (.pkRd k) .pkState
  | pkRdIndex {k} : Raises (.pkRd k) .pkIndex
  | csPk : Raises .csPk .pkState

/-- The faults of the quantizer (R63, R65). -/
theorem quantize_error {e : SpecEntry} {v : F64} {c : FaultCode} (h : quantize e v = .error c) :
    c = .specUnset ∨ c = .nanInput := by
  rcases quantize_cases e v with ⟨-, he⟩ | ⟨-, -, he⟩ | ⟨-, -, he⟩ <;> rw [he] at h <;> cases h
  · exact .inl rfl
  · exact .inr rfl

/-- The faults of an append: FIELD_RANGE only of a value that the width does not hold (R71). -/
theorem appendField_error {s : State} {width v : Nat} {c : FaultCode} (h : appendField s width v = .error c) :
    c = .pkState ∨ (c = .fieldRange ∧ 2 ^ width ≤ v) ∨ c = .pkOverflow := by
  rcases appendField_cases s width v with ⟨-, he⟩ | ⟨-, hrange, he⟩ | ⟨-, -, -, he⟩ | ⟨-, -, -, he⟩ <;>
    rw [he] at h <;> cases h
  · exact .inl rfl
  · exact .inr (.inl ⟨rfl, hrange⟩)
  · exact .inr (.inr rfl)

/-- A code that the quantizer answers fits its entry's width (R66). -/
theorem quantize_ok_lt {e : SpecEntry} {v : F64} {q : Nat} (hok : e.Ok) (hq : quantize e v = .ok q) :
    q < 2 ^ e.width.toNat := by
  obtain ⟨hvalid, hv, -⟩ := quantize_eq_ok_iff.1 hq
  obtain ⟨hadmitted, -⟩ := hok
  obtain ⟨hwidth, hadmits⟩ := hadmitted hvalid
  obtain ⟨p, hp, hle⟩ := quantize_le_maxCode hwidth hadmits hvalid hv
  cases hp.symm.trans hq
  exact le_maxCode_iff.1 hle

/-- PK.QAPP raises the faults of the quantizer and of the append, but no FIELD_RANGE: its code fits the field (R74). -/
theorem raises_of_effect_pkQapp {s : State} {idx : SpecIdx} {v : F64} {c : FaultCode} (hok : (s.entry idx).Ok)
    (h : effect (.pkQapp idx v) s = .error c) : Raises (.pkQapp idx v) c := by
  cases hsealed : s.pkDone with
  | true =>
    cases (effect_pkQapp_sealed hsealed).symm.trans h
    exact .pkQappSealed
  | false =>
    cases hq : quantize (s.entry idx) v with
    | error d =>
      cases (effect_pkQapp_of_quantize_error hsealed hq).symm.trans h
      rcases quantize_error hq with rfl | rfl
      · exact .pkQappUnset
      · exact .pkQappNan
    | ok q =>
      cases happend : appendField s (s.entry idx).width.toNat q with
      | ok u => simp [effect, hsealed, hq, happend, Except.bind, Except.map] at h
      | error d =>
        cases (effect_pkQapp_of_append_error hsealed hq happend).symm.trans h
        rcases appendField_error happend with rfl | ⟨rfl, hrange⟩ | rfl
        · exact .pkQappSealed
        · exact absurd (quantize_ok_lt hok hq) (Nat.not_lt.2 hrange)
        · exact .pkQappOverflow

/-- An effect that is a fault is one that `Raises` lists for its instruction. -/
theorem raises_of_effect {i : Instr} {s : State} {c : FaultCode} (htable : s.TableOk) (h : effect i s = .error c) :
    Raises i c := by
  cases i with
  | pkQapp idx v => exact raises_of_effect_pkQapp (htable idx) h
  | pkApp width v =>
    rcases appendField_error h with rfl | ⟨rfl, -⟩ | rfl
    · exact .pkAppSealed
    · exact .pkAppRange
    · exact .pkAppOverflow
  | quant idx v =>
    simp only [effect] at h
    cases hq : quantize (s.entry idx) v with
    | ok q => rw [hq] at h; cases h
    | error d =>
      rw [hq] at h
      cases h
      rcases quantize_error hq with rfl | rfl
      · exact .quantUnset
      · exact .quantNan
  | specWr idx width mn mx =>
    simp only [effect] at h
    split_ifs at h
    cases h
    exact .specWr
  | specRd idx sel =>
    simp only [effect] at h
    split at h <;> cases h
    exact .specRd
  | pkFin =>
    simp only [effect] at h
    split_ifs at h
    cases h
    exact .pkFin
  | pkRd k =>
    simp only [effect] at h
    split_ifs at h <;> cases h
    · exact .pkRdOpen
    · exact .pkRdIndex
  | csPk =>
    simp only [effect] at h
    split_ifs at h
    cases h
    exact .csPk
  | nop | pkClr | csClr | csAdd | csRd => cases h

/-- Settles O32: the fault taken is one that `Raises` lists, and each of those has a number of its command's row. -/
theorem faultCodesAreRaisedByTheirCommands : Obligations.FaultCodesAreRaisedByTheirCommands := by
  intro i s t htable hlive h hfault
  obtain ⟨c, heffect, rfl⟩ := exec_sets_fault hlive h hfault
  rw [State.takeFault_fcode]
  cases raises_of_effect htable heffect <;> simp [FaultCode.code]

end Sys2Proof.Machine
end

section
/-! A reset between commands (R98): the block takes the values after reset (R99), and the host's side stays (log 2). -/

namespace Sys2Proof.Machine

/-- Settles O13: `step_reset` says which state the step leaves, `resetStateHoldsTheStatedValues` what its registers hold. -/
theorem resetEventRestoresTheBlock : Obligations.ResetEventRestoresTheBlock := by
  intro s hreset
  obtain ⟨-, -, -, -, -, -, hbits, hdone, hsum, hres, hfault, hfcode, -⟩ := resetStateHoldsTheStatedValues
  exact ⟨s.resetBlock.advance, step_reset hreset, by simp [hbits, hdone, hsum, hres, hfault, hfcode]⟩

end Sys2Proof.Machine
end
